-- ==== Sys2Proof/Word.lean ====
section
/-! DEFINITION. The words exchanged with the host (spec/30_encoding.md R80, R82) and their field widths
(spec/00_scope.md R10). Everything else of the engine computes on unbounded naturals (R12). -/

namespace Sys2Proof

/-- `XLEN` (R10): the width of the operand fields `A`, `B` and of the response's `VALUE`. -/
abbrev xlen : Nat := 32

/-- `WLEN` (R10): the width of the field `W`. -/
abbrev wlen : Nat := 8

/-- A command word, `cmd[95:0]` (R80). -/
abbrev CommandWord := BitVec 96

/-- A response word, `rsp[39:0]` (R82). -/
abbrev ResponseWord := BitVec 40

/-- One entry of the polynomial ROM: an unsigned integer of at most 32 bits (spec/20_memory.md R50). -/
abbrev RomWord := BitVec 32

end Sys2Proof
end

