-- ==== Sys2Proof/Syntax.lean ====
section
/-! DEFINITION. The six commands, one constructor per row of spec/opcode_table.json (spec/30_encoding.md R85). -/

namespace Sys2Proof

/-- A command. Operands are naturals, zero-extended from their fields (spec/30_encoding.md R81); the bounds the
fields give them are `Instr.wf` (WellFormed.lean). -/
inductive Instr where
  /-- `GETF w` (spec/44_registry_getf.md R171). -/
  | getf (w : Nat)
  /-- `MUL w, a, b` (spec/41_multiply.md R141). -/
  | mul (w a b : Nat)
  /-- `DIV w, a, b`: dividend `a`, divisor `b` (spec/42_divide.md R151). -/
  | div (w a b : Nat)
  /-- `EXP w, a, e`: base `a`, exponent `e` (spec/43_exponentiate.md R161). -/
  | exp (w a e : Nat)
  /-- `LOGRD w, i` (spec/45_table_readback.md R180). -/
  | logrd (w i : Nat)
  /-- `ALOGRD w, i` (spec/45_table_readback.md R181). -/
  | alogrd (w i : Nat)
deriving DecidableEq, Repr

/-- The field width `w` a command names; every command names one (spec/30_encoding.md R92). -/
def Instr.width : Instr → Nat
  | .getf w => w
  | .mul w _ _ => w
  | .div w _ _ => w
  | .exp w _ _ => w
  | .logrd w _ => w
  | .alogrd w _ => w

/-- A command's name in spec/opcode_table.json (spec/30_encoding.md R89). -/
def Instr.mnemonic : Instr → String
  | .getf _ => "GETF"
  | .mul _ _ _ => "MUL"
  | .div _ _ _ => "DIV"
  | .exp _ _ _ => "EXP"
  | .logrd _ _ => "LOGRD"
  | .alogrd _ _ => "ALOGRD"

end Sys2Proof
end

