-- ==== Sys2Proof/WellFormed.lean ====
section
/-! DEFINITION. Which terms of `Instr` a command word can spell: each operand fits its field
(spec/30_encoding.md R80, R81). An operand that is no field element is NOT ill-formed: it is a result of execution
(R85). -/

namespace Sys2Proof

/-- `w` fits the field `W`: 0..255 (R81). -/
def fitsW (w : Nat) : Bool := w < 2 ^ wlen

/-- An operand fits the field `A` or `B`: 0..2^32-1 (R81). -/
def fitsX (v : Nat) : Bool := v < 2 ^ xlen

/-- Every operand fits its field of the command word. -/
def Instr.wf : Instr → Bool
  | .getf w => fitsW w
  | .mul w a b => fitsW w && fitsX a && fitsX b
  | .div w a b => fitsW w && fitsX a && fitsX b
  | .exp w a e => fitsW w && fitsX a && fitsX e
  | .logrd w i => fitsW w && fitsX i
  | .alogrd w i => fitsW w && fitsX i

end Sys2Proof
end

