-- ==== Sys2Proof/Decode.lean ====
section
/-! DEFINITION. The command word's fields, the decoder, the encoder and the opcode table's masks
(spec/30_encoding.md R80, R81, R85 to R88). The decoder is total on the 2^96 words; a word that spells no command is
rejected by a name of its own, which the engine does not tell apart (R86). -/

namespace Sys2Proof

/-- Field `OPC`, bits 7:0 (R80). -/
def opcField (c : CommandWord) : BitVec 8 := c.extractLsb' 0 8

/-- Field `W`, bits 15:8 (R80). -/
def wField (c : CommandWord) : BitVec 8 := c.extractLsb' 8 8

/-- Field `RSV`, bits 31:16 (R80). -/
def rsvField (c : CommandWord) : BitVec 16 := c.extractLsb' 16 16

/-- Field `A`, bits 63:32 (R80). -/
def aField (c : CommandWord) : BitVec 32 := c.extractLsb' 32 32

/-- Field `B`, bits 95:64 (R80). -/
def bField (c : CommandWord) : BitVec 32 := c.extractLsb' 64 32

/-- Why a word spells no command (R86). The engine's answer is the same for all three (log entry 8). -/
inductive IllegalWord where
  /-- `OPC` is 0x00 or at least 0x07. -/
  | unknownOpcode (opc : BitVec 8)
  /-- `RSV` is not zero. -/
  | reservedNotZero
  /-- A field that the command does not use is not zero. -/
  | unusedNotZero (opc : BitVec 8)
deriving DecidableEq, Repr

/-- Decode a command word (R85, R86, R87). -/
def decode (c : CommandWord) : Except IllegalWord Instr :=
  let w := (wField c).toNat
  let a := (aField c).toNat
  let b := (bField c).toNat
  if rsvField c = 0 then
    match (opcField c).toNat with
    | 1 => if a = 0 ∧ b = 0 then .ok (.getf w) else .error (.unusedNotZero (opcField c))
    | 2 => .ok (.mul w a b)
    | 3 => .ok (.div w a b)
    | 4 => .ok (.exp w a b)
    | 5 => if b = 0 then .ok (.logrd w a) else .error (.unusedNotZero (opcField c))
    | 6 => if b = 0 then .ok (.alogrd w a) else .error (.unusedNotZero (opcField c))
    | _ => .error (.unknownOpcode (opcField c))
  else .error .reservedNotZero

/-- A command word from its fields, `RSV` zero: `{B, A, RSV, W, OPC}` (R80). -/
def packCommand (opc w a b : Nat) : CommandWord :=
  BitVec.ofNat 32 b ++ BitVec.ofNat 32 a ++ (0 : BitVec 16) ++ BitVec.ofNat 8 w ++ BitVec.ofNat 8 opc

/-- Encode a command: its used fields as R80 places them, zero everywhere else (R87). -/
def encode : Instr → CommandWord
  | .getf w => packCommand 0x01 w 0 0
  | .mul w a b => packCommand 0x02 w a b
  | .div w a b => packCommand 0x03 w a b
  | .exp w a e => packCommand 0x04 w a e
  | .logrd w i => packCommand 0x05 w i 0
  | .alogrd w i => packCommand 0x06 w i 0

/-- One row of the opcode map (R85). -/
structure OpcodeRow where
  mnemonic : String
  mask : CommandWord
  pattern : CommandWord
deriving DecidableEq, Repr

/-- `cmd & mask = match` (R85). -/
def OpcodeRow.accepts (r : OpcodeRow) (c : CommandWord) : Bool := c &&& r.mask == r.pattern

/-- The opcode map of R85, mask and match as the spec prints them. -/
def opcodeRows : List OpcodeRow :=
  [ ⟨"GETF", 0xFFFFFFFFFFFFFFFFFFFF00FF, 0x000000000000000000000001⟩,
    ⟨"MUL", 0x0000000000000000FFFF00FF, 0x000000000000000000000002⟩,
    ⟨"DIV", 0x0000000000000000FFFF00FF, 0x000000000000000000000003⟩,
    ⟨"EXP", 0x0000000000000000FFFF00FF, 0x000000000000000000000004⟩,
    ⟨"LOGRD", 0xFFFFFFFF00000000FFFF00FF, 0x000000000000000000000005⟩,
    ⟨"ALOGRD", 0xFFFFFFFF00000000FFFF00FF, 0x000000000000000000000006⟩ ]

/-- The command word of an opcode-table row whose bits are `w`, the bits above `nbits` zero. The table numbers the
bits as the command word does, so no byte order enters (spec/20_memory.md R51). -/
def tableWord (nbits w : Nat) : CommandWord := BitVec.ofNat 96 (w % 2 ^ nbits)

/-- What the decoder reads from an opcode-table word; `none` where it refuses. -/
def decodeTableWord (nbits w : Nat) : Option Instr :=
  match decode (tableWord nbits w) with
  | .ok i => some i
  | .error _ => none

end Sys2Proof
end

