-- ==== Sys2Proof/Config.lean ====
section
/-! DEFINITION. The parameters fixed when an engine is instantiated: `MAX_WIDTH` (spec/00_scope.md R8) and
`PRIM_POLY` (R9), with the default instance. A machine holds its own parameters (Machine/State.lean), so that
statements about every state are statements about every configuration. -/

namespace Sys2Proof

/-- The parameters of an engine (R8, R9). There is no other (R11). -/
structure Config where
  /-- `MAX_WIDTH` (R8): the largest width the engine accepts. -/
  maxWidth : Nat
  /-- `PRIM_POLY` (R9): the contents of the 32-entry polynomial ROM (spec/10_state.md R21). -/
  primPoly : Vector RomWord 32
deriving DecidableEq, Repr

/-- The candidate ROM contents of spec/10_state.md R24. PRESUMED (log entry 2): the spec takes them from general
knowledge; only entry 2 is forced by its source (R23). -/
def Config.candidatePoly : Vector RomWord 32 :=
  #v[0x0, 0x1, 0x7, 0xB, 0x13, 0x25, 0x43, 0x89,
     0x11D, 0x211, 0x409, 0x805, 0x1053, 0x201B, 0x4443, 0x8003,
     0x1100B, 0x20009, 0x40081, 0x80027, 0x100009, 0x200005, 0x400003, 0x800021,
     0x1000087, 0x2000009, 0x4000047, 0x8000027, 0x10000009, 0x20000005, 0x40800007, 0x80000009]

/-- The default instance: `MAX_WIDTH = 24` (R8) over the candidate ROM (R24; log entry 2). -/
def Config.standard : Config := { maxWidth := 24, primPoly := Config.candidatePoly }

end Sys2Proof
end

