-- ==== Sys2Proof/Machine/State.lean ====
section
/-! DEFINITION. The engine's state (spec/10_state.md R20), its two ports, the state after reset
(spec/70_reset_and_hazards.md R221), and the reasons a step can stop. Plain data throughout. -/

namespace Sys2Proof.Machine

/-- The three address spaces (spec/20_memory.md R50). -/
inductive Space where
  | rom | log | alog
deriving DecidableEq, Repr

/-- The engine's error kinds (spec/60_exceptions.md R190). They are delivered in responses and stop nothing (R196). -/
inductive ErrorKind where
  /-- The source's OutOfRange (R191). -/
  | outOfRange
  /-- The source's DivideByZero (R192). -/
  | divideByZero
  /-- The spec's own IllegalCommand (R193). -/
  | illegalCommand
deriving DecidableEq, Repr

/-- The outcome named in a response's `STATUS` field (spec/30_encoding.md R83); its codes are in Flags.lean. -/
inductive Status where
  | ok | outOfRange | divByZero | illegalCmd
deriving DecidableEq, Repr

/-- A response (spec/30_encoding.md R82); its 40-bit word is `Response.word` in Flags.lean. -/
structure Response where
  status : Status
  value : BitVec 32
deriving DecidableEq, Repr

/-- Why the MODEL stops. The engine itself has no stop: its errors are responses (spec/60_exceptions.md R196). -/
inductive Fault where
  /-- Raised by a table read of an entry that no write has given a value since reset. SAFE: spec/00_scope.md R14
  asks for "a fault of the model, not as zero"; no state reached over a ROM that meets R22 raises it. -/
  | unwrittenEntry (sp : Space) (w i : Nat)
  /-- Raised by an access outside a space's index range (spec/20_memory.md R50). SAFE: the address does not exist;
  only a ROM that violates spec/10_state.md R22, of which the rules promise nothing (spec/40_rom_and_build.md R117),
  leads there. -/
  | noSuchEntry (sp : Space) (w i : Nat)
deriving DecidableEq, Repr

/-- Why the model has no meaning for a command. -/
inductive Refusal where
  /-- Raised by an arm of `exec` that has no meaning yet. SAFE: nothing is claimed of it. No arm raises it. -/
  | notModelled (mnemonic : String)
deriving DecidableEq, Repr

/-- The result of an internal procedure: a value, an error it raises (spec/00_scope.md R13 `raise`), or a fault of
the model. -/
inductive Res (α : Type) where
  | ok (v : α)
  | raise (e : ErrorKind)
  | fault (f : Fault)
deriving DecidableEq, Repr

/-- One log or antilog table: entry `i` is `some v` when written, `none` when not (spec/00_scope.md R14). An entry
past the end is unwritten. Entries are naturals (spec/10_state.md R37). The canonical form is `Table.wf`: the last
listed entry is a written one, so equal tables are equal data (log entry 6). -/
abbrev Table := Array (Option Nat)

/-- A slot of the registry, the storage for one width (spec/10_state.md R25). -/
structure Slot where
  /-- `VALID[w]`: 1 when the slot is built. -/
  valid : Bool
  /-- `LOG[w]` (R26). -/
  log : Table
  /-- `ALOG[w]` (R27). -/
  alog : Table
deriving DecidableEq, Repr

/-- A slot not yet requested: `VALID[w] = 0`, every entry unwritten (spec/70_reset_and_hazards.md R221). -/
def Slot.unbuilt : Slot := { valid := false, log := #[], alog := #[] }

/-- The engine's table memory: the slots of widths 2, 3, .., MAX_WIDTH in that order (spec/10_state.md R25). -/
abbrev Memory := List Slot

/-- What the host can present to the engine (spec/60_exceptions.md R202). -/
inductive HostEvent where
  /-- A command word, run to completion (spec/20_memory.md R53). -/
  | command (c : CommandWord)
  /-- The reset event (spec/70_reset_and_hazards.md R220). -/
  | reset
  /-- A command that an asserted reset cuts short (spec/70_reset_and_hazards.md R222; log entry 7). -/
  | cutCommand (c : CommandWord)
deriving DecidableEq, Repr

/-- The engine, with the host's two ports. -/
structure State where
  /-- `MAX_WIDTH`, fixed at instantiation (spec/00_scope.md R8; log entry 1). -/
  maxWidth : Nat
  /-- `ROM[0..31]` (spec/10_state.md R21), fixed at instantiation to `PRIM_POLY` (R9; log entry 1). -/
  rom : Vector RomWord 32
  /-- The registry: `VALID`, `LOG`, `ALOG` for every width (spec/10_state.md R25). -/
  slots : Memory
  /-- The command port: what the host sends, oldest first, not yet taken. The MODEL's own field (log entry 3). -/
  pending : List HostEvent
  /-- The response port: every response returned, oldest first. The MODEL's own field; nothing reads it (log entry 3). -/
  responses : List Response
deriving DecidableEq, Repr

/-- The parameters a machine was instantiated with. -/
def State.config (s : State) : Config := { maxWidth := s.maxWidth, primPoly := s.rom }

/-- The state right after reset of an engine with parameters `c` (spec/70_reset_and_hazards.md R221): ROM = PRIM_POLY,
every slot unbuilt, no command presented, no response given. -/
def State.initial (c : Config) : State :=
  { maxWidth := c.maxWidth
    rom := c.primPoly
    slots := List.replicate (c.maxWidth - 1) Slot.unbuilt
    pending := []
    responses := [] }

/-- The machine right after reset, for the default parameters (spec/00_scope.md R8, spec/10_state.md R24). -/
def State.reset : State := State.initial Config.standard

end Sys2Proof.Machine
end

