-- ==== Sys2Proof/Machine/Flags.lean ====
section
/-! DEFINITION. The engine has no flag and no condition code (spec/10_state.md R33): the outcome of a command is
carried by the `STATUS` field of its own response. This file holds the status codes and the response word
(spec/30_encoding.md R82, R83). -/

namespace Sys2Proof.Machine

/-- The status codes (R83). -/
def Status.code : Status → BitVec 8
  | .ok => 0x00
  | .outOfRange => 0x01
  | .divByZero => 0x02
  | .illegalCmd => 0x03

/-- The status that reports an error kind (spec/60_exceptions.md R190). -/
def ErrorKind.status : ErrorKind → Status
  | .outOfRange => .outOfRange
  | .divideByZero => .divByZero
  | .illegalCommand => .illegalCmd

/-- The response word `{VALUE, STATUS}`: `STATUS` in bits 7:0, `VALUE` in bits 39:8 (R82). -/
def Response.word (r : Response) : ResponseWord := r.value ++ r.status.code

end Sys2Proof.Machine
end

