-- ==== Sys2Proof/Machine/Operands.lean ====
section
/-! DEFINITION. The operand forms of a command: a width and unsigned numbers at face value (spec/30_encoding.md R81).
The engine has no register operand, no addressing mode and no immediate split over fields (spec/10_state.md R31,
spec/46_absent_families_and_arith_laws.md R186); what remains is the size of a width and the two range checks. -/

namespace Sys2Proof.Machine

/-- `size` = 2^w, the number of elements (spec/10_state.md R29). -/
def fieldSize (w : Nat) : Nat := 1 <<< w

/-- The width check `w < 2 or w > MAX_WIDTH` (spec/40_rom_and_build.md R111), true where the width is bad. -/
def badWidth (maxWidth w : Nat) : Bool := w < 2 || maxWidth < w

/-- The range check of an operand or index against a width's `size` (spec/20_memory.md R52), true where it is bad. -/
def outside (w v : Nat) : Bool := fieldSize w ≤ v

end Sys2Proof.Machine
end

