-- ==== Sys2Proof/Machine/Ops.lean ====
section
/-! DEFINITION. The operations every command is written over: table accesses (spec/00_scope.md R13, spec/20_memory.md
R50 to R54), ROM lookup and Build (spec/40_rom_and_build.md R110, R112), Lookup (spec/44_registry_getf.md R170),
respond, the delivery of an error (spec/60_exceptions.md R196), reset (spec/70_reset_and_hazards.md R220), and taking
the host's next event. -/

namespace Sys2Proof.Machine

/-- Run the next step of a procedure on the value of the one before; an error or a fault ends both. -/
@[inline] def Res.bind {α β : Type} (x : Res α) (k : α → Res β) : Res β :=
  match x with
  | .ok v => k v
  | .raise e => .raise e
  | .fault f => .fault f

/-! ### Tables -/

/-- The content of entry `i`; `none` where nothing has been written (spec/00_scope.md R14). -/
def Table.read (t : Table) (i : Nat) : Option Nat := (t[i]?).getD none

/-- `n` unwritten entries more. -/
def Table.pad : Nat → Table → Table
  | 0, t => t
  | n + 1, t => Table.pad n (t.push none)

/-- Write entry `i`, listing the unwritten entries below it where the table does not reach so far. -/
def Table.write (t : Table) (i v : Nat) : Table :=
  if h : i < t.size then t.set i (some v) h
  else (Table.pad (i - t.size) t).push (some v)

/-- The canonical form: no unwritten entry is listed last. -/
def Table.wf (t : Table) : Bool :=
  match t.back? with
  | some none => false
  | _ => true

/-- Every table of the memory is in canonical form. -/
def Memory.wf (m : Memory) : Bool := m.all fun sl => Table.wf sl.log && Table.wf sl.alog

/-- `TblRead` of a `LOG` or `ALOG` entry: the index must exist (spec/20_memory.md R50) and the entry must have been
written (spec/00_scope.md R14). -/
def tblRead (sp : Space) (w : Nat) (t : Table) (i : Nat) : Res Nat :=
  if i < fieldSize w then
    match Table.read t i with
    | some v => .ok v
    | none => .fault (.unwrittenEntry sp w i)
  else .fault (.noSuchEntry sp w i)

/-- `TblWrite` of a `LOG` or `ALOG` entry: the index must exist (spec/20_memory.md R50). -/
def tblWrite (sp : Space) (w : Nat) (t : Table) (i v : Nat) : Res Table :=
  if i < fieldSize w then .ok (Table.write t i v) else .fault (.noSuchEntry sp w i)

/-! ### Slots -/

/-- The slot of width `w`; a width below 2 or past the bank has none (spec/10_state.md R25) and reads as unbuilt
(log entry 9). -/
def State.slot (s : State) (w : Nat) : Slot :=
  if w < 2 then Slot.unbuilt else (s.slots[w - 2]?).getD Slot.unbuilt

/-- Replace the slot of width `w`, where there is one. -/
def State.setSlot (s : State) (w : Nat) (sl : Slot) : State :=
  if w < 2 then s else { s with slots := s.slots.set (w - 2) sl }

/-- `VALID[w]` (spec/10_state.md R34). -/
def State.validAt (s : State) (w : Nat) : Bool := (s.slot w).valid

/-- The content of `LOG[w][i]`, `none` where unwritten; looking is no access. -/
def State.logAt (s : State) (w i : Nat) : Option Nat := Table.read (s.slot w).log i

/-- The content of `ALOG[w][i]`, `none` where unwritten; looking is no access. -/
def State.alogAt (s : State) (w i : Nat) : Option Nat := Table.read (s.slot w).alog i

/-- `ROM[i]` as an unsigned integer, `i` in 0..31 (spec/10_state.md R21); 0 where there is no entry. -/
def State.romAt (s : State) (i : Nat) : Nat := ((s.rom[i]?).getD 0).toNat

/-- Read `LOG[w][i]`. -/
def readLog (w i : Nat) (s : State) : Res Nat := tblRead .log w (s.slot w).log i

/-- Read `ALOG[w][i]`. -/
def readAlog (w i : Nat) (s : State) : Res Nat := tblRead .alog w (s.slot w).alog i

/-- ROM lookup, `ROM[i]` for `i` in 0..31 (spec/40_rom_and_build.md R110). -/
def readRom (i : Nat) (s : State) : Res Nat :=
  match s.rom[i]? with
  | some p => .ok p.toNat
  | none => .fault (.noSuchEntry .rom 0 i)

/-! ### Build and Lookup -/

/-- One doubling-and-reducing step of the generator value `b` at width `w` with polynomial `p`
(spec/40_rom_and_build.md R112; spec/10_state.md R22 (b)). -/
def advance (w p b : Nat) : Nat :=
  let b' := b <<< 1
  if b' &&& fieldSize w ≠ 0 then b' ^^^ p else b'

/-- The loop of `Build(w)` (R112): `n` iterations still to run, from counter `log` and generator value `b`, over the
tables `L` and `A`. -/
def buildLoop (w p : Nat) : Nat → Nat → Nat → Table → Table → Res (Table × Table)
  | 0, _, _, L, A => .ok (L, A)
  | n + 1, log, b, L, A =>
    (tblWrite .log w L b log).bind fun L' =>
      (tblWrite .alog w A log b).bind fun A' =>
        buildLoop w p n (log + 1) (advance w p b) L' A'

/-- `Build(w)` on a pair of tables: `size` iterations from `log = 0`, `b = 1` (R112). -/
def build (w p : Nat) (L A : Table) : Res (Table × Table) := buildLoop w p (fieldSize w) 0 1 L A

/-- `Build(w)` and then `VALID[w] <- 1`, the last write (spec/20_memory.md R58; spec/44_registry_getf.md R170). -/
def buildSlot (w : Nat) (s : State) : Res State :=
  (readRom w s).bind fun p =>
    (build w p (s.slot w).log (s.slot w).alog).bind fun t =>
      .ok (s.setSlot w { valid := true, log := t.1, alog := t.2 })

/-- `Lookup(w)` (spec/44_registry_getf.md R170): the width check, then a build on the first request. -/
def lookup (w : Nat) (s : State) : Res State :=
  if badWidth s.maxWidth w then .raise .outOfRange
  else if s.validAt w then .ok s
  else buildSlot w s

/-! ### Responses -/

/-- `respond(STATUS, VALUE)` (spec/00_scope.md R13): the command's one response. -/
def State.respond (s : State) (st : Status) (v : Nat) : State :=
  { s with responses := s.responses ++ [{ status := st, value := BitVec.ofNat 32 v }] }

/-- TAKING AN EXCEPTION: the delivery of an error (spec/60_exceptions.md R196). The command ends with
`respond(code, 0)`; nothing is saved, no mode changes, no vector is fetched. There is no return from it (R197): the
engine is ready for the next command. -/
def State.raiseError (s : State) (e : ErrorKind) : State := s.respond e.status 0

/-- End a command with the value its arithmetic step gives, or with the error it raises. -/
def finish (r : Res Nat) (s : State) : Host.Outcome State Fault Refusal :=
  match r with
  | .ok v => .next (s.respond .ok v)
  | .raise e => .next (s.raiseError e)
  | .fault f => .fault f

/-- The frame of every command (spec/92_eei_decisions.md D8): `Lookup(w)` first, then the command's own procedure on
the state that leaves. -/
def withTable (w : Nat) (body : State → Res Nat) (s : State) : Host.Outcome State Fault Refusal :=
  match lookup w s with
  | .ok t => finish (body t) t
  | .raise e => .next (s.raiseError e)
  | .fault f => .fault f

/-- The engine's answer to a word that spells no command (spec/30_encoding.md R86): no `Lookup`, no state change. -/
def execIllegal (s : State) : Host.Outcome State Fault Refusal := .next (s.raiseError .illegalCommand)

/-! ### The host's events -/

/-- The reset event (spec/70_reset_and_hazards.md R220, R221): every `VALID[w] <- 0`, every entry unwritten; ROM and
MAX_WIDTH unchanged; no response. -/
def State.resetEngine (s : State) : State := { s with slots := s.slots.map fun _ => Slot.unbuilt }

/-- Take the host's oldest event that is not yet taken. -/
def takeEvent (s : State) : Option (HostEvent × State) :=
  match s.pending with
  | [] => none
  | e :: rest => some (e, { s with pending := rest })

/-- Present `e` to the engine before everything already pending. -/
def State.present (s : State) (e : HostEvent) : State := { s with pending := e :: s.pending }

end Sys2Proof.Machine
end

