-- ==== Sys2Proof/Machine/Divide.lean ====
section
/-! DEFINITION. `gf_divide` (spec/42_divide.md). -/

namespace Sys2Proof.Machine

/-- The correction of a difference of two logs (R150 step 4): one conditional addition, in the integers (R153). -/
def wrapDiff (w : Nat) (diff : Int) : Int := if diff < 0 then diff + (fieldSize w - 1) else diff

/-- `DivCore(w, a, b)` on a built table (R150): zero divisor, zero dividend, range check, table arithmetic, in this
order. -/
def divCore (w a b : Nat) (s : State) : Res Nat :=
  if b = 0 then .raise .divideByZero
  else if a = 0 then .ok 0
  else if outside w a ∨ outside w b then .raise .outOfRange
  else (readLog w a s).bind fun la => (readLog w b s).bind fun lb =>
    readAlog w (wrapDiff w ((la : Int) - (lb : Int))).toNat s

/-- `DIV w, a, b` (R151). -/
def execDiv (w a b : Nat) (s : State) : Host.Outcome State Fault Refusal :=
  withTable w (divCore w a b) s

end Sys2Proof.Machine
end

