-- ==== Sys2Proof/Machine/Multiply.lean ====
section
/-! DEFINITION. `gf_multiply` (spec/41_multiply.md). -/

namespace Sys2Proof.Machine

/-- The wraparound correction of a sum of two logs (R140 step 3): one conditional subtraction. -/
def wrapSum (w sum : Nat) : Nat := if fieldSize w - 1 ≤ sum then sum - (fieldSize w - 1) else sum

/-- `MulCore(w, a, b)` on a built table (R140): zero check, range check, table arithmetic, in this order. -/
def mulCore (w a b : Nat) (s : State) : Res Nat :=
  if a = 0 ∨ b = 0 then .ok 0
  else if outside w a ∨ outside w b then .raise .outOfRange
  else (readLog w a s).bind fun la => (readLog w b s).bind fun lb => readAlog w (wrapSum w (la + lb)) s

/-- `MUL w, a, b` (R141). -/
def execMul (w a b : Nat) (s : State) : Host.Outcome State Fault Refusal :=
  withTable w (mulCore w a b) s

end Sys2Proof.Machine
end

