-- ==== Sys2Proof/Machine/Exponentiate.lean ====
section
/-! DEFINITION. `gf_exponentiate` (spec/43_exponentiate.md). -/

namespace Sys2Proof.Machine

/-- `n` successive multiplications of `result` by `a`; the first error ends them (R160 case 3). -/
def expLoop (w a : Nat) (s : State) : Nat → Nat → Res Nat
  | 0, result => .ok result
  | n + 1, result => (mulCore w result a s).bind fun r => expLoop w a s n r

/-- `ExpCore(w, a, e)` on a built table (R160): the two unvalidated fast paths, then `e - 1` multiplications. -/
def expCore (w a e : Nat) (s : State) : Res Nat :=
  if e = 0 then .ok 1
  else if e = 1 then .ok a
  else expLoop w a s (e - 1) a

/-- `EXP w, a, e` (R161). -/
def execExp (w a e : Nat) (s : State) : Host.Outcome State Fault Refusal :=
  withTable w (expCore w a e) s

end Sys2Proof.Machine
end

