-- ==== Sys2Proof/Machine/ReadBack.lean ====
section
/-! DEFINITION. Table read-back, LOGRD and ALOGRD (spec/45_table_readback.md). R182 lets a model drop them; this one
keeps them. -/

namespace Sys2Proof.Machine

/-- The procedure of LOGRD after its `Lookup` (R180): index range, then the refused index 0, then the entry. -/
def logrdCore (w i : Nat) (s : State) : Res Nat :=
  if outside w i then .raise .outOfRange
  else if i = 0 then .raise .illegalCommand
  else readLog w i s

/-- The procedure of ALOGRD after its `Lookup` (R181): index range, then the entry. -/
def alogrdCore (w i : Nat) (s : State) : Res Nat :=
  if outside w i then .raise .outOfRange else readAlog w i s

/-- `LOGRD w, i` (R180). -/
def execLogrd (w i : Nat) (s : State) : Host.Outcome State Fault Refusal :=
  withTable w (logrdCore w i) s

/-- `ALOGRD w, i` (R181). -/
def execAlogrd (w i : Nat) (s : State) : Host.Outcome State Fault Refusal :=
  withTable w (alogrdCore w i) s

end Sys2Proof.Machine
end

