-- ==== Sys2Proof/Machine/Registry.lean ====
section
/-! DEFINITION. The field registry's command, GETF (spec/44_registry_getf.md). -/

namespace Sys2Proof.Machine

/-- `GETF w` (R171): `Lookup(w)`, then `VALUE` = size = 2^w. -/
def execGetf (w : Nat) (s : State) : Host.Outcome State Fault Refusal :=
  withTable w (fun _ => .ok (fieldSize w)) s

end Sys2Proof.Machine
end

