-- ==== Sys2Proof/Machine/Dispatch.lean ====
section
/-! DEFINITION. One arm per command of spec/30_encoding.md R85, each a direct call of its meaning. -/

namespace Sys2Proof.Machine

def exec (i : Instr) (s : State) : Host.Outcome State Fault Refusal :=
  match i with
  | .getf w => Sys2Proof.Machine.execGetf w s
  | .mul w a b => Sys2Proof.Machine.execMul w a b s
  | .div w a b => Sys2Proof.Machine.execDiv w a b s
  | .exp w a e => Sys2Proof.Machine.execExp w a e s
  | .logrd w j => Sys2Proof.Machine.execLogrd w j s
  | .alogrd w j => Sys2Proof.Machine.execAlogrd w j s

end Sys2Proof.Machine
end

