-- ==== Sys2Proof/Machine/Step.lean ====
section
/-! DEFINITION. One step: take the host's next event and carry it out whole (spec/20_memory.md R53, R57). The engine
has no program counter and fetches nothing (spec/10_state.md R32); the next command is the oldest pending one. -/

namespace Sys2Proof.Machine

/-- One step. With no event pending the engine is idle and holds its state (spec/60_exceptions.md R200; log entry 4). -/
def step (s : State) : Host.Outcome State Fault Refusal :=
  match takeEvent s with
  | none => .next s
  | some (.command c, t) =>
    match decode c with
    | .ok i => exec i t
    | .error _ => execIllegal t
  | some (.reset, t) => .next t.resetEngine
  | some (.cutCommand _, t) => .next t.resetEngine

/-- `s` with the opcode-table word `w` presented as the very next command (log entry 4). -/
def State.withFetchWord (s : State) (nbits w : Nat) : State := s.present (.command (tableWord nbits w))

end Sys2Proof.Machine
end

