-- ==== Sys2Proof/Safety.lean ====
section
/-! DEFINITION. The terms the statements use: what a polynomial ROM must satisfy (spec/10_state.md R22), the invariant
of the engine's state (spec/10_state.md R38), a state that serves a width, and reference arithmetic that does not look
at the tables. -/

namespace Sys2Proof.Machine

/-- `g_k` of spec/40_rom_and_build.md R113: the generator value after `k` doubling-and-reducing steps from 1. -/
def genPow (w p : Nat) : Nat → Nat
  | 0 => 1
  | k + 1 => advance w p (genPow w p k)

/-- What spec/10_state.md R22 requires of `p = ROM[w]`: (a) `degree`; (b) the generator value first returns to 1 after
exactly 2^w - 1 steps, having taken every value in 1..2^w-1 exactly once. -/
structure PrimitiveAt (w p : Nat) : Prop where
  /-- (a): bit `w` is set and no bit above it. -/
  degree : 2 ^ w ≤ p ∧ p < 2 ^ (w + 1)
  /-- (b): after 2^w - 1 steps the value is 1 again. -/
  returns : genPow w p (2 ^ w - 1) = 1
  /-- (b): before that no value occurs twice. -/
  once : ∀ j < 2 ^ w - 1, ∀ k < 2 ^ w - 1, genPow w p j = genPow w p k → j = k
  /-- (b): before that every value in 1..2^w-1 occurs. -/
  every : ∀ x < 2 ^ w, 1 ≤ x → ∃ k < 2 ^ w - 1, genPow w p k = x

/-- Every ROM entry the engine can use meets R22. -/
def State.RomPrimitive (s : State) : Prop :=
  ∀ w ≤ s.maxWidth, 2 ≤ w → PrimitiveAt w (s.romAt w)

/-- The invariant of the engine. It asks nothing of the polynomials. -/
structure State.Inv (s : State) : Prop where
  /-- `MAX_WIDTH` is legal (spec/00_scope.md R8). -/
  widths : 2 ≤ s.maxWidth ∧ s.maxWidth ≤ 31
  /-- There is one slot for each width in 2..MAX_WIDTH (spec/10_state.md R25). -/
  bank : s.slots.length = s.maxWidth - 1
  /-- A built slot holds exactly what `Build(w)` writes (spec/10_state.md R38). -/
  built : ∀ w ≤ s.maxWidth, 2 ≤ w → s.validAt w = true →
    build w (s.romAt w) #[] #[] = .ok ((s.slot w).log, (s.slot w).alog)
  /-- A slot that is not built has every entry unwritten (spec/70_reset_and_hazards.md R221). -/
  unbuilt : ∀ w ≤ s.maxWidth, 2 ≤ w → s.validAt w = false → s.slot w = Slot.unbuilt

/-- The engine in state `s` serves width `w`: the state meets the invariant, `w` passes the width check
(spec/40_rom_and_build.md R111) and its polynomial meets R22. -/
structure State.Serves (s : State) (w : Nat) : Prop where
  inv : s.Inv
  low : 2 ≤ w
  high : w ≤ s.maxWidth
  prim : PrimitiveAt w (s.romAt w)

/-- Multiplication of polynomials over GF(2) modulo `p`, by shifting and reducing: the sum (exclusive-or) of
`a * x^i` over the set bits `i < n` of `b` (spec/93_implementation_defined.md G2). It looks at no table. -/
def polyMul (w p : Nat) : Nat → Nat → Nat → Nat
  | 0, _, _ => 0
  | n + 1, a, b => (if b % 2 = 1 then a else 0) ^^^ polyMul w p n (advance w p a) (b / 2)

/-- The response a host event draws, where `f` answers the command words: a reset and a cut command draw none
(spec/70_reset_and_hazards.md R220, R222). -/
def HostEvent.answer (f : CommandWord → Response) : HostEvent → Option Response
  | .command c => some (f c)
  | .reset => none
  | .cutCommand _ => none

end Sys2Proof.Machine
end

