-- ==== Sys2Proof/Certificates/Slice0/Obligations.lean ====
section
/-! DEFINITION. The statements for the provers. `respond .ok v` puts `v` in the 32-bit `VALUE` field; where a statement
gives a value it also bounds it below 2^32, so that nothing is cut off. `State.Serves s w` says that the state meets the
engine's invariant, that `w` passes the width check and that `ROM[w]` has the properties of spec/10_state.md R22. The
lists `pending` and `responses` are the model's own fields, the host's two ports (DESIGN CHOICE, log entry 3). -/

open Sys2Proof Sys2Proof.Machine

/-! ### Encoding -/

/-- spec/30_encoding.md, spec/20_memory.md: the oldest pending command word, when it decodes, is executed by `exec` on
the state it has been taken from, and so is an opcode-table word presented by `withFetchWord`. That commands wait in the
list `pending` is the model's choice (log entry 3), and so is that `withFetchWord` puts its word before everything
pending, so that the very next step runs it (log entry 4). -/
def Obligations.StepRunsTheDecodedCommand : Prop :=
  (∀ (s : State) (c : CommandWord) (rest : List HostEvent) (i : Instr),
    s.pending = .command c :: rest → decode c = .ok i → step s = exec i { s with pending := rest }) ∧
  (∀ (s : State) (nbits w : Nat) (i : Instr),
    decodeTableWord nbits w = some i → step (s.withFetchWord nbits w) = exec i s)

/-- Sample words from spec/95_test_vectors.md (sections 2.7 and 3) decode to the commands they stand for, or are
refused. The names of the three reasons for refusing are the model's choice (log entry 8); the spec has none. -/
def Obligations.SampleWordsDecode : Prop :=
  decode 0x000000000000000000000201 = .ok (.getf 2) ∧
  decode 0x000000030000000200000202 = .ok (.mul 2 2 3) ∧
  decode 0x000000020000000100000203 = .ok (.div 2 1 2) ∧
  decode 0x000000020000006300000204 = .ok (.exp 2 99 2) ∧
  decode 0x000000000000000100000205 = .ok (.logrd 2 1) ∧
  decode 0x0000000000FFFFFF00001806 = .ok (.alogrd 24 16777215) ∧
  decode 0x000000000000000000000000 = .error (.unknownOpcode 0) ∧
  decode 0x000000020000000200010202 = .error .reservedNotZero ∧
  decode 0x000000010000000100000205 = .error (.unusedNotZero 5)

/-- R80: the places of the five fields and the command as a single number. -/
def Obligations.CommandWordLayout : Prop :=
  ∀ c : CommandWord,
    (opcField c).toNat = c.toNat % 2 ^ 8 ∧
    (wField c).toNat = c.toNat / 2 ^ 8 % 2 ^ 8 ∧
    (rsvField c).toNat = c.toNat / 2 ^ 16 % 2 ^ 16 ∧
    (aField c).toNat = c.toNat / 2 ^ 32 % 2 ^ 32 ∧
    (bField c).toNat = c.toNat / 2 ^ 64 ∧
    c.toNat = ((bField c).toNat <<< 64) ||| ((aField c).toNat <<< 32) ||| ((rsvField c).toNat <<< 16) |||
      ((wField c).toNat <<< 8) ||| (opcField c).toNat

/-- R82: the response word, one response per command, and `VALUE` zero unless `STATUS` is OK. -/
def Obligations.ResponseWordLayout : Prop :=
  (∀ r : Response,
    r.word.toNat = (r.value.toNat <<< 8) ||| r.status.code.toNat ∧
    r.word.toNat % 2 ^ 8 = r.status.code.toNat ∧ r.word.toNat / 2 ^ 8 = r.value.toNat) ∧
  (∀ (s : State) (c : CommandWord) (t : State), step (s.present (.command c)) = .next t →
    ∃ r : Response, t.responses = s.responses ++ [r] ∧ (r.status ≠ .ok → r.value = 0))

/-- spec/30_encoding.md section 2: the four status codes, and no other is ever produced. -/
def Obligations.StatusCodesAreTheFour : Prop :=
  Status.ok.code = 0x00 ∧ Status.outOfRange.code = 0x01 ∧ Status.divByZero.code = 0x02 ∧
  Status.illegalCmd.code = 0x03 ∧ (∀ st : Status, st.code.toNat < 0x04) ∧
  (∀ e : ErrorKind, e.status ≠ .ok)

/-- R85: a word spells the command of a row exactly when `cmd & mask = match`, with the fields the row uses, and no
word matches two rows. -/
def Obligations.DecodeIsTheOpcodeMap : Prop :=
  (∀ c : CommandWord,
    (c &&& 0xFFFFFFFFFFFFFFFFFFFF00FF = 0x1 ↔ decode c = .ok (.getf (wField c).toNat)) ∧
    (c &&& 0x0000000000000000FFFF00FF = 0x2 ↔
      decode c = .ok (.mul (wField c).toNat (aField c).toNat (bField c).toNat)) ∧
    (c &&& 0x0000000000000000FFFF00FF = 0x3 ↔
      decode c = .ok (.div (wField c).toNat (aField c).toNat (bField c).toNat)) ∧
    (c &&& 0x0000000000000000FFFF00FF = 0x4 ↔
      decode c = .ok (.exp (wField c).toNat (aField c).toNat (bField c).toNat)) ∧
    (c &&& 0xFFFFFFFF00000000FFFF00FF = 0x5 ↔ decode c = .ok (.logrd (wField c).toNat (aField c).toNat)) ∧
    (c &&& 0xFFFFFFFF00000000FFFF00FF = 0x6 ↔ decode c = .ok (.alogrd (wField c).toNat (aField c).toNat))) ∧
  (∀ (c : CommandWord), ∀ r ∈ opcodeRows, ∀ q ∈ opcodeRows, r.accepts c = true → q.accepts c = true → r = q)

/-- R86: exactly which words spell no command, and that such a word is answered ILLEGAL_CMD with no state change. -/
def Obligations.IllegalWordsChangeNothing : Prop :=
  (∀ c : CommandWord,
    ((∃ x, decode c = .error x) ↔
      (opcField c = 0x00 ∨ 0x07 ≤ (opcField c).toNat) ∨ rsvField c ≠ 0 ∨
      (opcField c = 0x01 ∧ (aField c ≠ 0 ∨ bField c ≠ 0)) ∨
      ((opcField c = 0x05 ∨ opcField c = 0x06) ∧ bField c ≠ 0)) ∧
    ((∃ x, decode c = .error x) ↔ ∀ r ∈ opcodeRows, r.accepts c = false)) ∧
  (∀ (s : State) (c : CommandWord) (x : IllegalWord), decode c = .error x →
    step (s.present (.command c)) = .next (s.respond .illegalCmd 0))

/-- R87: decode after encode is the identity on well-formed commands, encode after decode is the identity on legal
words, and two different legal words decode to different commands. -/
def Obligations.DecodeEncodeRoundTrip : Prop :=
  (∀ i : Instr, i.wf = true → decode (encode i) = .ok i) ∧
  (∀ (c : CommandWord) (i : Instr), decode c = .ok i → i.wf = true ∧ encode i = c) ∧
  (∀ (c d : CommandWord) (i : Instr), decode c = .ok i → decode d = .ok i → c = d)

/-! ### Reset, idling, configuration -/

/-- R221: the state after reset, both of a fresh engine and of one that was running: ROM is PRIM_POLY, every width has
a slot, no slot is valid, no table entry has a value, and a fresh engine has no command under way. -/
def Obligations.StateAfterReset : Prop :=
  (∀ c : Config,
    (State.initial c).rom = c.primPoly ∧ (State.initial c).slots.length = c.maxWidth - 1 ∧
    (State.initial c).pending = [] ∧
    ∀ w i, (State.initial c).validAt w = false ∧ (State.initial c).logAt w i = none ∧
      (State.initial c).alogAt w i = none) ∧
  (∀ s : State, s.resetEngine.rom = s.rom ∧ s.resetEngine.slots.length = s.slots.length ∧
    ∀ w i, s.resetEngine.validAt w = false ∧ s.resetEngine.logAt w i = none ∧ s.resetEngine.alogAt w i = none)

/-- spec/70_reset_and_hazards.md section 1: the reset event clears every `VALID` flag, keeps ROM and gives no response; no
command makes a built slot unbuilt. That the reset event leaves the list `pending` as it was is the model's choice (log
entry 3). -/
def Obligations.ResetEventClearsEverySlot : Prop :=
  (∀ s : State, ∃ t, step (s.present .reset) = .next t ∧ (∀ w, t.validAt w = false) ∧
    t.rom = s.rom ∧ t.maxWidth = s.maxWidth ∧ t.responses = s.responses ∧ t.pending = s.pending) ∧
  (∀ (s : State) (c : CommandWord) (t : State) (w : Nat), step (s.present (.command c)) = .next t →
    s.validAt w = true → t.validAt w = true)

/-- R222: a command that a reset cuts short gives no response and leaves the state reset leaves. -/
def Obligations.CutCommandLeavesResetState : Prop :=
  ∀ (s : State) (c : CommandWord),
    step (s.present (.cutCommand c)) = step (s.present .reset) ∧
    ∃ t, step (s.present (.cutCommand c)) = .next t ∧ t.responses = s.responses ∧ t.rom = s.rom ∧
      ∀ w i, t.validAt w = false ∧ t.logAt w i = none ∧ t.alogAt w i = none

/-- spec/60_exceptions.md section 5: between commands the engine is idle and holds its state (as a step of its own, the
model's choice of log entry 4). -/
def Obligations.IdleEngineHoldsItsState : Prop :=
  ∀ s : State, s.pending = [] → step s = .next s

/-- spec/10_state.md sections 2 and 4: no step writes ROM or changes MAX_WIDTH. -/
def Obligations.StepKeepsConfiguration : Prop :=
  ∀ s t : State, step s = .next t → t.rom = s.rom ∧ t.maxWidth = s.maxWidth

/-! ### Invariants -/

/-- spec/10_state.md R38 as an invariant of one step, for every state and every ROM. -/
def Obligations.StepKeepsTheInvariant : Prop :=
  ∀ s t : State, s.Inv → step s = .next t → t.Inv

/-- The invariant and the canonical form of the memory hold right after reset of every legal configuration (the
canonical form is the model's own, log entry 6). -/
def Obligations.InitialStateMeetsTheInvariant : Prop :=
  State.reset.Inv ∧
  ∀ c : Config, 2 ≤ c.maxWidth → c.maxWidth ≤ 31 →
    (State.initial c).Inv ∧ Memory.wf (State.initial c).slots = true

/-- Every step keeps the memory's canonical form, over every ROM and from every state that has it (the form is the
model's own, log entry 6). -/
def Obligations.StepKeepsMemoryCanonical : Prop :=
  ∀ s t : State, Memory.wf s.slots = true → step s = .next t → Memory.wf t.slots = true

/-- R38: in every state reachable from reset, a built slot holds exactly what `Build(w)` writes into empty tables, a
function of `w` and `ROM[w]` alone. -/
def Obligations.ReachableRegistryHoldsBuilds : Prop :=
  ∀ (c : Config) (evs : List HostEvent) (n : Nat) (t : State),
    2 ≤ c.maxWidth → c.maxWidth ≤ 31 →
    Sys2Proof.core.run n ({ State.initial c with pending := evs } : State) = .next t →
    ∀ w, 2 ≤ w → w ≤ c.maxWidth → t.validAt w = true →
      build w ((State.initial c).romAt w) #[] #[] = .ok ((t.slot w).log, (t.slot w).alog)

/-- R232: over a ROM that meets R22 every command terminates with exactly one response, from every state of the
invariant, so no fault of the model is ever raised. -/
def Obligations.EveryCommandAnswersOnce : Prop :=
  ∀ (s : State) (c : CommandWord), s.Inv → s.RomPrimitive →
    ∃ t r, step (s.present (.command c)) = .next t ∧ t.responses = s.responses ++ [r] ∧
      t.pending = s.pending ∧ t.Inv ∧ t.RomPrimitive

/-! ### ROM and Build -/

/-- R23: 7 is the only polynomial of degree 2 that meets R22, so every legal ROM has it at index 2. -/
def Obligations.RomEntryTwoIsForced : Prop :=
  (∀ p : Nat, PrimitiveAt 2 p ↔ p = 7) ∧ ∀ s : State, s.Inv → s.RomPrimitive → s.romAt 2 = 7

/-- spec/10_state.md section 2: every entry 2..31 of the candidate ROM of the default instance (PRESUMED, log entry 2)
meets R22, so the default machine is one whose commands all answer. -/
def Obligations.CandidateRomIsPrimitive : Prop :=
  (∀ w, 2 ≤ w → w ≤ 31 → PrimitiveAt w ((Config.candidatePoly[w]?).getD 0).toNat) ∧ State.reset.RomPrimitive

/-- R113: what `Build(w)` leaves in empty tables, points (a) to (f), and the worked example. -/
def Obligations.BuildTableContents : Prop :=
  (∀ w p, 2 ≤ w → PrimitiveAt w p → ∃ L A, build w p #[] #[] = .ok (L, A) ∧
    (∀ k < 2 ^ w, Table.read A k = some (genPow w p k)) ∧
    Table.read A 0 = some 1 ∧ Table.read A (2 ^ w - 1) = some 1 ∧
    (∀ x < 2 ^ w, 1 ≤ x → ∃ k < 2 ^ w - 1, Table.read A k = some x ∧
      ∀ j < 2 ^ w - 1, Table.read A j = some x → j = k) ∧
    (∀ x < 2 ^ w, 2 ≤ x → ∃ k, 1 ≤ k ∧ k ≤ 2 ^ w - 2 ∧ genPow w p k = x ∧ Table.read L x = some k ∧
      ∀ j, 1 ≤ j → j ≤ 2 ^ w - 2 → genPow w p j = x → j = k) ∧
    Table.read L 1 = some (2 ^ w - 1) ∧
    Table.read L 0 = none ∧
    (∀ x < 2 ^ w, 1 ≤ x → ∃ l, Table.read L x = some l ∧ Table.read A l = some x) ∧
    (∀ i v, Table.read L i = some v ∨ Table.read A i = some v → i < 2 ^ w ∧ 1 ≤ v ∧ v ≤ 2 ^ w - 1) ∧
    (∀ i, Table.read L i = some (2 ^ w - 1) → i = 1)) ∧
  build 2 7 #[] #[] = .ok (#[none, some 3, some 1, some 2], #[some 1, some 2, some 3, some 1])

/-- R116: the widths of the intermediates of `Build(w)`. -/
def Obligations.BuildIntermediatesAreBounded : Prop :=
  ∀ w p, 2 ≤ w → PrimitiveAt w p → ∀ k,
    (1 ≤ genPow w p k ∧ genPow w p k ≤ 2 ^ w - 1) ∧
    (2 ≤ genPow w p k <<< 1 ∧ genPow w p k <<< 1 ≤ 2 * 2 ^ w - 2) ∧
    (1 ≤ advance w p (genPow w p k) ∧ advance w p (genPow w p k) ≤ 2 ^ w - 1) ∧
    genPow w p k <<< 1 < 2 ^ (w + 1) ∧ fieldSize w < 2 ^ (w + 1) ∧
    (w ≤ 31 → genPow w p k <<< 1 < 2 ^ 32 ∧ fieldSize w < 2 ^ 32)

/-- spec/40_rom_and_build.md section 2: `Build(w)` stores to `LOG[w]` at the generator values of its iterations and to
`ALOG[w]` below `size`, and to no other entry, whatever the tables held before and whatever the polynomial. -/
def Obligations.BuildStoresOnlyItsEntries : Prop :=
  ∀ (w p : Nat) (L A L' A' : Table), build w p L A = .ok (L', A') →
    (∀ i, (∀ k < 2 ^ w, genPow w p k ≠ i) → Table.read L' i = Table.read L i) ∧
    (∀ i, 2 ^ w ≤ i → Table.read A' i = Table.read A i) ∧
    (∀ k < 2 ^ w, Table.read A' k = some (genPow w p k))

/-- R28: the three invariants of a built slot, with the stored value of `LOG[w][1]`. -/
def Obligations.BuiltSlotInvariants : Prop :=
  ∀ (s : State) (w : Nat), s.Serves w → s.validAt w = true →
    (∀ a < 2 ^ w, 1 ≤ a → ∃ l, s.logAt w a = some l ∧ s.alogAt w l = some a) ∧
    s.alogAt w 0 = some 1 ∧
    (∀ x < 2 ^ w, 1 ≤ x → ∃ k < 2 ^ w - 1, s.alogAt w k = some x ∧
      ∀ j < 2 ^ w - 1, s.alogAt w j = some x → j = k) ∧
    (∀ k < 2 ^ w - 1, ∃ x, s.alogAt w k = some x ∧ s.alogAt w (k + 1) = some (advance w (s.romAt w) x)) ∧
    s.alogAt w (2 ^ w - 1) = some 1 ∧ s.logAt w 1 = some (2 ^ w - 1)

/-- R37: every written entry is at most size-1 and fits in `w` bits. -/
def Obligations.TableEntriesFitTheirWidth : Prop :=
  ∀ (s : State) (w i v : Nat), s.Serves w → s.logAt w i = some v ∨ s.alogAt w i = some v →
    v ≤ 2 ^ w - 1 ∧ v < 2 ^ w

/-! ### Lookup and the commands -/

/-- R170: `Lookup(w)`: the width check, the build on the first request, and nothing else. -/
def Obligations.LookupFollowsItsRule : Prop :=
  (∀ (s : State) (w : Nat), w < 2 ∨ s.maxWidth < w → lookup w s = .raise .outOfRange) ∧
  (∀ (s : State) (w : Nat), 2 ≤ w → w ≤ s.maxWidth → s.validAt w = true → lookup w s = .ok s) ∧
  (∀ (s : State) (w : Nat), s.Serves w → ∃ t L A, lookup w s = .ok t ∧ t.validAt w = true ∧
    build w (s.romAt w) #[] #[] = .ok (L, A) ∧ (t.slot w).log = L ∧ (t.slot w).alog = A ∧
    (∀ v, v ≠ w → t.slot v = s.slot v) ∧ t.rom = s.rom ∧ t.maxWidth = s.maxWidth ∧
    t.pending = s.pending ∧ t.responses = s.responses ∧ lookup w t = .ok t)

/-- R171: GETF answers size = 2^w after its `Lookup`, OUT_OF_RANGE for a bad width; a repeated GETF changes no state;
and the worked example. -/
def Obligations.GetfFollowsItsRule : Prop :=
  (∀ (s : State) (w : Nat), w < 2 ∨ s.maxWidth < w → exec (.getf w) s = .next (s.respond .outOfRange 0)) ∧
  (∀ (s : State) (w : Nat), s.Serves w → 2 ^ w < 2 ^ 32 ∧ ∃ t, lookup w s = .ok t ∧
    exec (.getf w) s = .next (t.respond .ok (2 ^ w)) ∧
    exec (.getf w) (t.respond .ok (2 ^ w)) = .next ((t.respond .ok (2 ^ w)).respond .ok (2 ^ w))) ∧
  (∀ s : State, s.Serves 2 → ∃ t : State, exec (.getf 2) s = .next (t.respond .ok 4) ∧ t.slot 2 =
    { valid := true, log := #[none, some 3, some 1, some 2], alog := #[some 1, some 2, some 3, some 1] })

/-- R140: `MulCore`: zero check first, then range check, then log addition with one wraparound correction; the first
two look at no table. -/
def Obligations.MulCoreFollowsItsRule : Prop :=
  (∀ (s : State) (w a b : Nat), a = 0 ∨ b = 0 → mulCore w a b s = .ok 0) ∧
  (∀ (s : State) (w a b : Nat), a ≠ 0 → b ≠ 0 → 2 ^ w ≤ a ∨ 2 ^ w ≤ b → mulCore w a b s = .raise .outOfRange) ∧
  (∀ (s : State) (w a b : Nat), s.Serves w → s.validAt w = true → a ≠ 0 → b ≠ 0 → a < 2 ^ w → b < 2 ^ w →
    ∃ la lb v, s.logAt w a = some la ∧ s.logAt w b = some lb ∧
      s.alogAt w (if 2 ^ w - 1 ≤ la + lb then la + lb - (2 ^ w - 1) else la + lb) = some v ∧
      mulCore w a b s = .ok v)

/-- R141: MUL: `Lookup`, then `MulCore`, with its tests in order, its corner cases and the worked example. -/
def Obligations.MulFollowsItsRule : Prop :=
  (∀ (s : State) (w a b : Nat), w < 2 ∨ s.maxWidth < w →
    exec (.mul w a b) s = .next (s.respond .outOfRange 0)) ∧
  (∀ (s : State) (w : Nat), s.Serves w → ∃ t, lookup w s = .ok t ∧ ∀ a b,
    (a = 0 ∨ b = 0 → exec (.mul w a b) s = .next (t.respond .ok 0)) ∧
    (a ≠ 0 → b ≠ 0 → 2 ^ w ≤ a ∨ 2 ^ w ≤ b → exec (.mul w a b) s = .next (t.respond .outOfRange 0)) ∧
    (a ≠ 0 → b ≠ 0 → a < 2 ^ w → b < 2 ^ w →
      ∃ v, v < 2 ^ 32 ∧ mulCore w a b t = .ok v ∧ exec (.mul w a b) s = .next (t.respond .ok v)) ∧
    (a < 2 ^ w → exec (.mul w a 1) s = .next (t.respond .ok a))) ∧
  (∀ s : State, s.Serves 2 → ∃ t, lookup 2 s = .ok t ∧ exec (.mul 2 2 3) s = .next (t.respond .ok 1))

/-- R150: `DivCore`: zero divisor, zero dividend, range check, then log subtraction in the integers with one
correction; the first three look at no table. -/
def Obligations.DivCoreFollowsItsRule : Prop :=
  (∀ (s : State) (w a : Nat), divCore w a 0 s = .raise .divideByZero) ∧
  (∀ (s : State) (w b : Nat), b ≠ 0 → divCore w 0 b s = .ok 0) ∧
  (∀ (s : State) (w a b : Nat), a ≠ 0 → b ≠ 0 → 2 ^ w ≤ a ∨ 2 ^ w ≤ b → divCore w a b s = .raise .outOfRange) ∧
  (∀ (s : State) (w a b : Nat), s.Serves w → s.validAt w = true → a ≠ 0 → b ≠ 0 → a < 2 ^ w → b < 2 ^ w →
    ∃ la lb d v : Nat, s.logAt w a = some la ∧ s.logAt w b = some lb ∧
      (d : Int) = (if (la : Int) - lb < 0 then (la : Int) - lb + (2 ^ w - 1) else (la : Int) - lb) ∧
      s.alogAt w d = some v ∧ divCore w a b s = .ok v)

/-- R151: DIV: `Lookup`, then `DivCore`, with its tests in order, its corner cases and the worked example. -/
def Obligations.DivFollowsItsRule : Prop :=
  (∀ (s : State) (w a b : Nat), w < 2 ∨ s.maxWidth < w →
    exec (.div w a b) s = .next (s.respond .outOfRange 0)) ∧
  (∀ (s : State) (w : Nat), s.Serves w → ∃ t, lookup w s = .ok t ∧ ∀ a b,
    exec (.div w a 0) s = .next (t.respond .divByZero 0) ∧
    (b ≠ 0 → exec (.div w 0 b) s = .next (t.respond .ok 0)) ∧
    (a ≠ 0 → b ≠ 0 → 2 ^ w ≤ a ∨ 2 ^ w ≤ b → exec (.div w a b) s = .next (t.respond .outOfRange 0)) ∧
    (a ≠ 0 → b ≠ 0 → a < 2 ^ w → b < 2 ^ w →
      ∃ v, v < 2 ^ 32 ∧ divCore w a b t = .ok v ∧ exec (.div w a b) s = .next (t.respond .ok v)) ∧
    (a < 2 ^ w → exec (.div w a 1) s = .next (t.respond .ok a)) ∧
    (a ≠ 0 → a < 2 ^ w → exec (.div w a a) s = .next (t.respond .ok 1)) ∧
    (2 ≤ b → b < 2 ^ w → ∃ lb v, t.logAt w b = some lb ∧ 1 ≤ 2 ^ w - 1 - lb ∧ 2 ^ w - 1 - lb ≤ 2 ^ w - 2 ∧
      t.alogAt w (2 ^ w - 1 - lb) = some v ∧ exec (.div w 1 b) s = .next (t.respond .ok v))) ∧
  (∀ s : State, s.Serves 2 → ∃ t, lookup 2 s = .ok t ∧ exec (.div 2 1 2) s = .next (t.respond .ok 3))

/-- R160: `ExpCore`: the two fast paths, which look at neither the base's range nor a table, and otherwise `e - 1`
successive multiplications by `a`, ended by the first error. -/
def Obligations.ExpCoreFollowsItsRule : Prop :=
  (∀ (s : State) (w a : Nat), expCore w a 0 s = .ok 1 ∧ expCore w a 1 s = .ok a) ∧
  (∀ (s : State) (w a e : Nat) (r : Nat → Nat), 2 ≤ e → r 0 = a →
    (∀ k < e - 1, mulCore w (r k) a s = .ok (r (k + 1))) → expCore w a e s = .ok (r (e - 1))) ∧
  (∀ (s : State) (w a e n : Nat) (r : Nat → Nat) (x : ErrorKind), 2 ≤ e → r 0 = a → n < e - 1 →
    (∀ k < n, mulCore w (r k) a s = .ok (r (k + 1))) → mulCore w (r n) a s = .raise x →
    expCore w a e s = .raise x)

/-- R161: EXP: `Lookup`, then `ExpCore`, with its tests in order, its corner cases and the worked example. -/
def Obligations.ExpFollowsItsRule : Prop :=
  (∀ (s : State) (w a e : Nat), w < 2 ∨ s.maxWidth < w →
    exec (.exp w a e) s = .next (s.respond .outOfRange 0)) ∧
  (∀ (s : State) (w : Nat), s.Serves w → ∃ t, lookup w s = .ok t ∧ ∀ a e,
    exec (.exp w a 0) s = .next (t.respond .ok 1) ∧
    (a < 2 ^ 32 → exec (.exp w a 1) s = .next (t.respond .ok a)) ∧
    (2 ≤ e → exec (.exp w 0 e) s = .next (t.respond .ok 0)) ∧
    (2 ≤ e → 2 ^ w ≤ a → exec (.exp w a e) s = .next (t.respond .outOfRange 0)) ∧
    (2 ≤ e → exec (.exp w 1 e) s = .next (t.respond .ok 1)) ∧
    (2 ≤ e → a ≠ 0 → a < 2 ^ w →
      ∃ v, v < 2 ^ 32 ∧ expCore w a e t = .ok v ∧ exec (.exp w a e) s = .next (t.respond .ok v))) ∧
  (∀ s : State, s.Serves 2 → ∃ t, lookup 2 s = .ok t ∧ exec (.exp 2 2 3) s = .next (t.respond .ok 1))

/-- R180: LOGRD: width, index range, refused index 0, then the entry; `LOG[w][1]` is size-1; the worked examples. -/
def Obligations.LogrdFollowsItsRule : Prop :=
  (∀ (s : State) (w i : Nat), w < 2 ∨ s.maxWidth < w →
    exec (.logrd w i) s = .next (s.respond .outOfRange 0)) ∧
  (∀ (s : State) (w : Nat), s.Serves w → ∃ t, lookup w s = .ok t ∧
    exec (.logrd w 0) s = .next (t.respond .illegalCmd 0) ∧ t.logAt w 0 = none ∧
    (∀ i, 2 ^ w ≤ i → exec (.logrd w i) s = .next (t.respond .outOfRange 0)) ∧
    (∀ i, 1 ≤ i → i < 2 ^ w → ∃ v, v < 2 ^ 32 ∧ t.logAt w i = some v ∧
      exec (.logrd w i) s = .next (t.respond .ok v) ∧
      (i = 1 → v = 2 ^ w - 1) ∧ (2 ≤ i → 1 ≤ v ∧ v ≤ 2 ^ w - 2))) ∧
  (∀ s : State, s.Serves 2 → ∃ t, lookup 2 s = .ok t ∧
    exec (.logrd 2 3) s = .next (t.respond .ok 2) ∧ exec (.logrd 2 1) s = .next (t.respond .ok 3) ∧
    exec (.logrd 2 0) s = .next (t.respond .illegalCmd 0) ∧
    exec (.logrd 2 4) s = .next (t.respond .outOfRange 0))

/-- R181: ALOGRD: width, index range, then the entry; both ends of the table are 1, entry 1 is the generator, and it
undoes LOGRD; the worked examples. -/
def Obligations.AlogrdFollowsItsRule : Prop :=
  (∀ (s : State) (w i : Nat), w < 2 ∨ s.maxWidth < w →
    exec (.alogrd w i) s = .next (s.respond .outOfRange 0)) ∧
  (∀ (s : State) (w : Nat), s.Serves w → ∃ t, lookup w s = .ok t ∧
    (∀ i, 2 ^ w ≤ i → exec (.alogrd w i) s = .next (t.respond .outOfRange 0)) ∧
    (∀ i < 2 ^ w, ∃ v, v < 2 ^ 32 ∧ t.alogAt w i = some v ∧ exec (.alogrd w i) s = .next (t.respond .ok v)) ∧
    exec (.alogrd w 0) s = .next (t.respond .ok 1) ∧
    exec (.alogrd w (2 ^ w - 1)) s = .next (t.respond .ok 1) ∧
    exec (.alogrd w 1) s = .next (t.respond .ok 2) ∧
    (∀ i, 1 ≤ i → i < 2 ^ w → ∃ l, exec (.logrd w i) s = .next (t.respond .ok l) ∧
      exec (.alogrd w l) s = .next (t.respond .ok i))) ∧
  (∀ s : State, s.Serves 2 → ∃ t, lookup 2 s = .ok t ∧
    exec (.alogrd 2 2) s = .next (t.respond .ok 3) ∧ exec (.alogrd 2 3) s = .next (t.respond .ok 1) ∧
    exec (.alogrd 2 4) s = .next (t.respond .outOfRange 0))

/-! ### Frames -/

/-- spec/20_memory.md section 1, spec/10_state.md section 4: what a command of any of the six forms leaves unchanged.
It gives one response; the configuration and the pending events stay; every slot of another width stays; its own slot
stays where it was built or where the width is bad. -/
def Obligations.CommandFrame : Prop :=
  ∀ (i : Instr) (s t : State), exec i s = .next t →
    t.maxWidth = s.maxWidth ∧ t.rom = s.rom ∧ t.pending = s.pending ∧
    (∃ r, t.responses = s.responses ++ [r]) ∧
    (∀ v, v ≠ i.width → t.slot v = s.slot v) ∧
    (s.validAt i.width = true ∨ i.width < 2 ∨ s.maxWidth < i.width → t.slots = s.slots)

/-- spec/20_memory.md section 1: the table entries a command stores to, for the one form that stores, the first command
of a width: at `LOG[w]` the generator values of the build, at `ALOG[w]` the indices below size. Every other entry of
every table reads as before. -/
def Obligations.CommandStoresOnlyBuildEntries : Prop :=
  ∀ (i : Instr) (s t : State), exec i s = .next t → ∀ v j,
    ((v ≠ i.width ∨ s.validAt v = true ∨ ∀ k < 2 ^ v, genPow v (s.romAt v) k ≠ j) → t.logAt v j = s.logAt v j) ∧
    ((v ≠ i.width ∨ s.validAt v = true ∨ 2 ^ v ≤ j) → t.alogAt v j = s.alogAt v j)

/-- R64: a command is a table request and one response: with a bad width it changes nothing but the response; with a
valid width all it changes is what `Lookup(w)` changes, whether it ends in a value or in an error. -/
def Obligations.ErrorsLeaveSharedState : Prop :=
  ∀ (i : Instr) (s t : State), exec i s = .next t →
    ((i.width < 2 ∨ s.maxWidth < i.width) ∧ t = s.respond .outOfRange 0) ∨
    (2 ≤ i.width ∧ i.width ≤ s.maxWidth ∧ ∃ u st v, lookup i.width s = .ok u ∧ t = u.respond st v ∧
      (st ≠ .ok → v = 0))

/-- R30: a slot's life: once built it is never written or cleared by a command; it becomes built only by a command
that names its width, after which its tables stay; only a reset makes it unbuilt. -/
def Obligations.SlotLifecycle : Prop :=
  (∀ (s t : State) (c : CommandWord) (w : Nat), step (s.present (.command c)) = .next t →
    s.validAt w = true → t.slot w = s.slot w) ∧
  (∀ (s t : State) (c : CommandWord) (w : Nat), step (s.present (.command c)) = .next t →
    s.validAt w = false → t.validAt w = true →
    ∃ i, decode c = .ok i ∧ i.width = w ∧ 2 ≤ w ∧ w ≤ s.maxWidth ∧
      ∃ u, lookup w s = .ok u ∧ t.slot w = u.slot w) ∧
  (∀ s t : State, step s = .next t → ∀ w, s.validAt w = true → t.validAt w = false →
    ∃ rest, s.pending = .reset :: rest ∨ ∃ c, s.pending = .cutCommand c :: rest)

/-- R54: reads have no side effect: a command on a built slot changes no table and no flag; issued again, any command
gives the same response and changes nothing more; and no command changes what an entry of a built table reads as. -/
def Obligations.ReadsAreIdempotent : Prop :=
  (∀ (i : Instr) (s t : State), exec i s = .next t →
    (s.validAt i.width = true → t.slots = s.slots) ∧
    (s.Serves i.width → ∃ r u, t.responses = s.responses ++ [r] ∧ exec i t = .next u ∧
      u.responses = t.responses ++ [r] ∧ u.slots = t.slots)) ∧
  (∀ (s t : State) (c : CommandWord) (v j : Nat), step (s.present (.command c)) = .next t →
    s.validAt v = true → t.logAt v j = s.logAt v j ∧ t.alogAt v j = s.alogAt v j)

/-! ### Errors -/

/-- R191: every cause of OutOfRange, and no other, over all six commands. -/
def Obligations.OutOfRangeExactlyWhen : Prop :=
  ∀ (i : Instr) (s : State), s.Inv → s.RomPrimitive →
    ∃ t r, exec i s = .next t ∧ t.responses = s.responses ++ [r] ∧
      (r.status = .outOfRange → r.value = 0) ∧
      (r.status = .outOfRange ↔
        (i.width < 2 ∨ s.maxWidth < i.width) ∨
        (∃ w a b, i = .mul w a b ∧ a ≠ 0 ∧ b ≠ 0 ∧ (2 ^ w ≤ a ∨ 2 ^ w ≤ b)) ∨
        (∃ w a b, i = .div w a b ∧ a ≠ 0 ∧ b ≠ 0 ∧ (2 ^ w ≤ a ∨ 2 ^ w ≤ b)) ∨
        (∃ w a e, i = .exp w a e ∧ 2 ≤ e ∧ 2 ^ w ≤ a) ∨
        (∃ w j, (i = .logrd w j ∨ i = .alogrd w j) ∧ 2 ^ w ≤ j))

/-- R192: the one cause of DivideByZero. -/
def Obligations.DivideByZeroExactlyWhen : Prop :=
  ∀ (i : Instr) (s : State), s.Inv → s.RomPrimitive →
    ∃ t r, exec i s = .next t ∧ t.responses = s.responses ++ [r] ∧
      (r.status = .divByZero → r.value = 0) ∧
      (r.status = .divByZero ↔ ∃ w a, i = .div w a 0 ∧ 2 ≤ w ∧ w ≤ s.maxWidth)

/-- R193: the two causes of IllegalCommand, over all command words; the first changes no state, the second only what
`Lookup(w)` changes. -/
def Obligations.IllegalCommandExactlyWhen : Prop :=
  ∀ (c : CommandWord) (s : State), s.Inv → s.RomPrimitive →
    ∃ t r, step (s.present (.command c)) = .next t ∧ t.responses = s.responses ++ [r] ∧
      (r.status = .illegalCmd → r.value = 0) ∧
      (r.status = .illegalCmd ↔
        (∃ x, decode c = .error x) ∨ ∃ w, decode c = .ok (.logrd w 0) ∧ 2 ≤ w ∧ w ≤ s.maxWidth) ∧
      ((∃ x, decode c = .error x) → t.slots = s.slots) ∧
      (∀ w, decode c = .ok (.logrd w 0) → 2 ≤ w → w ≤ s.maxWidth →
        ∃ u, lookup w s = .ok u ∧ t = u.respond .illegalCmd 0)

/-! ### Field arithmetic -/

/-- R142: the laws of multiplication on the elements of a built table. -/
def Obligations.MultiplicationLaws : Prop :=
  ∀ (s : State) (w : Nat), s.Serves w → s.validAt w = true →
    (∀ a b, a < 2 ^ w → b < 2 ^ w → ∃ v < 2 ^ w, mulCore w a b s = .ok v ∧ mulCore w b a s = .ok v ∧
      (a ≠ 0 → b ≠ 0 → v ≠ 0)) ∧
    (∀ a b c, a < 2 ^ w → b < 2 ^ w → c < 2 ^ w → ∃ ab bc v, mulCore w a b s = .ok ab ∧
      mulCore w ab c s = .ok v ∧ mulCore w b c s = .ok bc ∧ mulCore w a bc s = .ok v) ∧
    (∀ a b c, a < 2 ^ w → b < 2 ^ w → c < 2 ^ w → ∃ ab ac, mulCore w a b s = .ok ab ∧
      mulCore w a c s = .ok ac ∧ mulCore w a (b ^^^ c) s = .ok (ab ^^^ ac)) ∧
    (∀ a < 2 ^ w, mulCore w a 1 s = .ok a ∧ mulCore w 0 a s = .ok 0 ∧ mulCore w a 0 s = .ok 0)

/-- spec/93_implementation_defined.md G2: the tables realise multiplication of polynomials over GF(2) modulo `ROM[w]`,
a reference that looks at no table. -/
def Obligations.MultiplicationIsPolynomialMultiplication : Prop :=
  ∀ (s : State) (w a b : Nat), s.Serves w → s.validAt w = true → a < 2 ^ w → b < 2 ^ w →
    mulCore w a b s = .ok (polyMul w (s.romAt w) w a b)

/-- R152: the laws of division on the elements of a built table. -/
def Obligations.DivisionLaws : Prop :=
  ∀ (s : State) (w : Nat), s.Serves w → s.validAt w = true →
    (∀ a b, a ≠ 0 → b ≠ 0 → a < 2 ^ w → b < 2 ^ w →
      (∃ q, divCore w a b s = .ok q ∧ mulCore w q b s = .ok a ∧ q ≠ 0 ∧ q < 2 ^ w) ∧
      (∃ m, mulCore w a b s = .ok m ∧ divCore w m b s = .ok a)) ∧
    (∀ b < 2 ^ w, b ≠ 0 → divCore w 0 b s = .ok 0) ∧
    (∀ a < 2 ^ w, divCore w a 1 s = .ok a) ∧
    (∀ a < 2 ^ w, a ≠ 0 → divCore w a a s = .ok 1)

/-- R162: the closed form of exponentiation. -/
def Obligations.ExponentiationClosedForm : Prop :=
  ∀ (s : State) (w : Nat), s.Serves w → s.validAt w = true →
    (∀ e, 2 ≤ e → expCore w 0 e s = .ok 0) ∧
    (∀ a e, a ≠ 0 → a < 2 ^ w → ∃ la v, s.logAt w a = some la ∧
      s.alogAt w ((la * e) % (2 ^ w - 1)) = some v ∧ expCore w a e s = .ok v) ∧
    expCore w 0 0 s = .ok 1 ∧
    (∀ a, a ≠ 0 → a < 2 ^ w → expCore w a (2 ^ w - 1) s = .ok 1) ∧
    (∀ a e f, a ≠ 0 → a < 2 ^ w → e % (2 ^ w - 1) = f % (2 ^ w - 1) → expCore w a e s = expCore w a f s)

/-- R143: the bounds of the log sum, that one subtraction suffices, and that the result does not depend on which of 0
and size-1 is stored in `LOG[w][1]`. -/
def Obligations.LogSumBounds : Prop :=
  ∀ (s : State) (w : Nat), s.Serves w → s.validAt w = true →
    (∀ a b, a ≠ 0 → b ≠ 0 → a < 2 ^ w → b < 2 ^ w → ∃ la lb, s.logAt w a = some la ∧ s.logAt w b = some lb ∧
      (1 ≤ la ∧ la ≤ 2 ^ w - 1) ∧ (1 ≤ lb ∧ lb ≤ 2 ^ w - 1) ∧
      2 ≤ la + lb ∧ la + lb ≤ 2 * (2 ^ w - 1) ∧ la + lb < 2 ^ (w + 1) ∧
      wrapSum w (la + lb) ≤ 2 ^ w - 1 ∧ (∃ v, s.alogAt w (wrapSum w (la + lb)) = some v) ∧
      (wrapSum w (la + lb) = 2 ^ w - 1 ↔ a = 1 ∧ b = 1)) ∧
    (∀ a b, mulCore w a b (s.setSlot w { (s.slot w) with log := Table.write (s.slot w).log 1 0 }) =
      mulCore w a b s)

/-- R153: the bounds of the log difference, that one addition suffices, that the duplicate entry is never read, and
that the result does not depend on which of 0 and size-1 is stored in `LOG[w][1]`. -/
def Obligations.LogDifferenceBounds : Prop :=
  ∀ (s : State) (w : Nat), s.Serves w → s.validAt w = true →
    (∀ a b, a ≠ 0 → b ≠ 0 → a < 2 ^ w → b < 2 ^ w → ∃ la lb : Nat, s.logAt w a = some la ∧ s.logAt w b = some lb ∧
      (1 ≤ la ∧ la ≤ 2 ^ w - 1) ∧ (1 ≤ lb ∧ lb ≤ 2 ^ w - 1) ∧
      -((2 : Int) ^ w - 2) ≤ (la : Int) - lb ∧ (la : Int) - lb ≤ (2 : Int) ^ w - 2 ∧
      0 ≤ wrapDiff w ((la : Int) - lb) ∧ wrapDiff w ((la : Int) - lb) ≤ (2 : Int) ^ w - 2 ∧
      ∃ v, s.alogAt w (wrapDiff w ((la : Int) - lb)).toNat = some v) ∧
    (∀ a b, divCore w a b (s.setSlot w { (s.slot w) with log := Table.write (s.slot w).log 1 0 }) =
      divCore w a b s)

/-! ### Independence -/

/-- R173: the response to a command word is the same from any two states of the invariant that agree on MAX_WIDTH and
on the one ROM entry the word names. -/
def Obligations.ResponsesDoNotDependOnTheRegistry : Prop :=
  ∀ (c : CommandWord) (s₁ s₂ : State), s₁.Inv → s₂.Inv → s₁.maxWidth = s₂.maxWidth →
    s₁.romAt (wField c).toNat = s₂.romAt (wField c).toNat →
    (2 ≤ (wField c).toNat → (wField c).toNat ≤ s₁.maxWidth →
      PrimitiveAt (wField c).toNat (s₁.romAt (wField c).toNat)) →
    ∃ t₁ t₂ r, step (s₁.present (.command c)) = .next t₁ ∧ step (s₂.present (.command c)) = .next t₂ ∧
      t₁.responses = s₁.responses ++ [r] ∧ t₂.responses = s₂.responses ++ [r]

/-- spec/70_reset_and_hazards.md section 5: the responses of a run are the map of one pure function over the command
words issued, resets and cut commands drawing none, whatever state of the invariant the run starts from. -/
def Obligations.RunIsTheMapOfAPureFunction : Prop :=
  ∀ c : Config, ∃ f : CommandWord → Response, ∀ s : State, s.config = c → s.Inv → s.RomPrimitive →
    ∃ t : State, Sys2Proof.core.run s.pending.length s = .next t ∧ t.pending = [] ∧
      t.responses = s.responses ++ s.pending.filterMap (HostEvent.answer f)

/-- spec/60_exceptions.md section 4: errors are not sticky and no response is ever read: a step behaves the same
whatever responses came before, but for the list it appends to. -/
def Obligations.PastResponsesAreNotRead : Prop :=
  ∀ (s t : State) (old : List Response), step s = .next t →
    ∃ new, t.responses = s.responses ++ new ∧
      step { s with responses := old } = .next { t with responses := old ++ new }

/-- spec/40_rom_and_build.md section 2, spec/10_state.md section 3: a command of one width neither reads nor writes the
slot of another. -/
def Obligations.SlotsDoNotInteract : Prop :=
  ∀ (i : Instr) (s t : State) (v : Nat) (sl : Slot), v ≠ i.width → exec i s = .next t →
    exec i (s.setSlot v sl) = .next (t.setSlot v sl)

/-- spec/95_test_vectors.md program P4: a slot rebuilt after a reset holds the tables it held before. -/
def Obligations.RebuildAfterResetGivesTheSameTables : Prop :=
  ∀ (s : State) (w : Nat), s.Serves w → s.validAt w = true →
    ∃ t, lookup w s.resetEngine = .ok t ∧ t.slot w = s.slot w
end

