-- ==== Sys2Proof/Laws/Table.lean ====
section
/-! SUPPORT. The laws of the tables: a read after a write, the canonical form and that every operation keeps it, and
that equal contents are equal data. -/

namespace Sys2Proof.Machine

@[simp] theorem Table.read_empty (i : Nat) : Table.read #[] i = none := by simp [Table.read]

@[simp] theorem Table.pad_size (n : Nat) (t : Table) : (Table.pad n t).size = t.size + n := by
  induction n generalizing t with
  | zero => rfl
  | succ n ih => simp only [Table.pad, ih, Array.size_push]; omega

theorem Table.read_push_none (t : Table) (i : Nat) : Table.read (t.push none) i = Table.read t i := by
  unfold Table.read
  rw [Array.getElem?_push]
  split
  · next h => simp [h]
  · rfl

@[simp] theorem Table.read_pad (n : Nat) (t : Table) (i : Nat) : Table.read (Table.pad n t) i = Table.read t i := by
  induction n generalizing t with
  | zero => rfl
  | succ n ih => simp only [Table.pad, ih, Table.read_push_none]

/-- A read after a write: the value at the entry written, the old content everywhere else. -/
theorem Table.read_write (t : Table) (i v j : Nat) :
    Table.read (Table.write t i v) j = if j = i then some v else Table.read t j := by
  unfold Table.write
  split
  · next h =>
    simp only [Table.read, Array.getElem?_set]
    by_cases hj : j = i
    · simp [hj]
    · simp [hj, Ne.symm hj]
  · next h =>
    have hs : (Table.pad (i - t.size) t).size = i := by simp; omega
    rw [Table.read, Array.getElem?_push, hs]
    split
    · rfl
    · exact Table.read_pad _ _ _

@[simp] theorem Table.read_write_same (t : Table) (i v : Nat) : Table.read (Table.write t i v) i = some v := by
  simp [Table.read_write]

theorem Table.read_write_ne (t : Table) {i j : Nat} (v : Nat) (h : j ≠ i) :
    Table.read (Table.write t i v) j = Table.read t j := by simp [Table.read_write, h]

/-! ### The canonical form -/

theorem Table.wf_empty : Table.wf #[] = true := by decide

/-- A table is in canonical form when its last listed entry, if there is one, is written. -/
theorem Table.wf_iff (t : Table) : Table.wf t = true ↔ t.size = 0 ∨ ∃ v, Table.read t (t.size - 1) = some v := by
  unfold Table.wf Table.read
  rw [Array.back?_eq_getElem?]
  rcases Nat.eq_zero_or_pos t.size with h | h
  · have ht : t = #[] := Array.eq_empty_of_size_eq_zero h
    subst ht; simp
  · have h0 : ¬ t.size = 0 := by omega
    have hlt : t.size - 1 < t.size := by omega
    rw [Array.getElem?_eq_getElem hlt]
    cases t[t.size - 1] <;> simp [h0]

/-- Every write keeps the canonical form. -/
theorem Table.write_wf (t : Table) (i v : Nat) (h : Table.wf t = true) : Table.wf (Table.write t i v) = true := by
  rw [Table.wf_iff] at *
  right
  rw [Table.read_write]
  unfold Table.write
  split
  · next hi =>
    rw [Array.size_set]
    split
    · exact ⟨v, rfl⟩
    · exact h.resolve_left (by omega)
  · simp only [Array.size_push, Table.pad_size]
    exact ⟨v, if_pos (by omega)⟩

/-- Tables in canonical form with the same contents are the same data. -/
theorem Table.ext_of_wf {t u : Table} (ht : Table.wf t = true) (hu : Table.wf u = true)
    (h : ∀ i, Table.read t i = Table.read u i) : t = u := by
  have past (x : Table) (i : Nat) (hi : x.size ≤ i) : Table.read x i = none := by
    simp [Table.read, Array.getElem?_eq_none hi]
  have key (x y : Table) (hx : Table.wf x = true) (hxy : ∀ i, Table.read x i = Table.read y i) :
      x.size ≤ y.size := by
    rcases (Table.wf_iff x).1 hx with h0 | ⟨v, hv⟩
    · omega
    · by_contra hlt
      rw [hxy, past y _ (by omega)] at hv
      cases hv
  have hsz : t.size = u.size := Nat.le_antisymm (key t u ht h) (key u t hu fun i => (h i).symm)
  refine Array.ext hsz fun i h1 h2 => ?_
  have := h i
  simpa [Table.read, Array.getElem?_eq_getElem h1, Array.getElem?_eq_getElem h2] using this

/-! ### Checked accesses -/

@[simp] theorem fieldSize_eq (w : Nat) : fieldSize w = 2 ^ w := by simp [fieldSize, Nat.one_shiftLeft]

/-- All a table read can do. -/
theorem tblRead_cases (sp : Space) (w : Nat) (t : Table) (i : Nat) :
    (∃ v, i < 2 ^ w ∧ Table.read t i = some v ∧ tblRead sp w t i = .ok v) ∨
    (i < 2 ^ w ∧ Table.read t i = none ∧ tblRead sp w t i = .fault (.unwrittenEntry sp w i)) ∨
    (2 ^ w ≤ i ∧ tblRead sp w t i = .fault (.noSuchEntry sp w i)) := by
  unfold tblRead
  rw [fieldSize_eq]
  by_cases h : i < 2 ^ w
  · cases hr : Table.read t i with
    | none => exact .inr (.inl ⟨h, rfl, by simp [h]⟩)
    | some v => exact .inl ⟨v, h, rfl, by simp [h]⟩
  · exact .inr (.inr ⟨by omega, by simp [h]⟩)

/-- A read of a written entry gives its content. -/
theorem tblRead_ok {sp : Space} {w : Nat} {t : Table} {i v : Nat} (h : i < 2 ^ w) (hr : Table.read t i = some v) :
    tblRead sp w t i = .ok v := by simp [tblRead, h, hr]

/-- A checked write that succeeds is the plain write. -/
theorem tblWrite_ok_iff {sp : Space} {w : Nat} {t u : Table} {i v : Nat} :
    tblWrite sp w t i v = .ok u ↔ i < 2 ^ w ∧ u = Table.write t i v := by
  unfold tblWrite
  rw [fieldSize_eq]
  split
  · next h => simp only [Res.ok.injEq, h, true_and]; exact eq_comm
  · next h => simp [h]

end Sys2Proof.Machine
end

