-- ==== Sys2Proof/Laws/Generator.lean ====
section
/-! SUPPORT. The doubling-and-reducing step and the powers of the generator (spec/10_state.md R22). -/

namespace Sys2Proof.Machine

@[simp] theorem genPow_zero (w p : Nat) : genPow w p 0 = 1 := rfl
@[simp] theorem genPow_succ (w p k : Nat) : genPow w p (k + 1) = advance w p (genPow w p k) := rfl

/-- Once 0, the generator value stays 0. -/
@[simp] theorem advance_zero (w p : Nat) : advance w p 0 = 0 := by simp [advance]

/-- Bit `w` of a number, as `advance` tests it. -/
theorem and_fieldSize_ne_zero_iff (w x : Nat) : x &&& fieldSize w ≠ 0 ↔ x.testBit w = true := by
  rw [fieldSize_eq, Nat.and_two_pow]
  cases x.testBit w <;> simp

/-- The two ways `advance` can go. -/
theorem advance_eq (w p b : Nat) : advance w p b = if (b <<< 1).testBit w then b <<< 1 ^^^ p else b <<< 1 := by
  unfold advance
  simp only [and_fieldSize_ne_zero_iff]

/-- A number of w+1 bits whose bit `w` is clear has w bits. -/
theorem lt_two_pow_of_testBit_clear {w x : Nat} (h : x < 2 ^ (w + 1)) (hb : x.testBit w = false) : x < 2 ^ w := by
  refine Nat.lt_pow_two_of_testBit x fun i hi => ?_
  rcases Nat.eq_or_lt_of_le hi with rfl | hlt
  · exact hb
  · exact Nat.testBit_lt_two_pow (Nat.lt_of_lt_of_le h (Nat.pow_le_pow_right (by omega) hlt))

/-- Property (a) of R22 keeps the generator value below size (spec/10_state.md R22, the derived remark). -/
theorem advance_lt {w p b : Nat} (hp : 2 ^ w ≤ p ∧ p < 2 ^ (w + 1)) (hb : b < 2 ^ w) : advance w p b < 2 ^ w := by
  have hs : b <<< 1 < 2 ^ (w + 1) := by rw [Nat.shiftLeft_eq, Nat.pow_succ]; omega
  have hpt : p.testBit w = true := by
    by_contra h
    have := lt_two_pow_of_testBit_clear hp.2 (by simpa using h)
    omega
  rw [advance_eq]
  split
  · next h => exact lt_two_pow_of_testBit_clear (Nat.xor_lt_two_pow hs hp.2) (by simp [Nat.testBit_xor, h, hpt])
  · next h => exact lt_two_pow_of_testBit_clear hs (by simpa using h)

/-- The powers of the generator repeat with period 2^w - 1. -/
theorem genPow_add_period {w p : Nat} (h : PrimitiveAt w p) (k : Nat) :
    genPow w p (k + (2 ^ w - 1)) = genPow w p k := by
  induction k with
  | zero => simpa using h.returns
  | succ k ih => rw [show k + 1 + (2 ^ w - 1) = (k + (2 ^ w - 1)) + 1 by omega, genPow_succ, ih, genPow_succ]

/-- Only the exponent modulo 2^w - 1 matters. -/
theorem genPow_mod {w p : Nat} (h : PrimitiveAt w p) (k : Nat) : genPow w p (k % (2 ^ w - 1)) = genPow w p k := by
  conv_rhs => rw [← Nat.mod_add_div k (2 ^ w - 1)]
  generalize k % (2 ^ w - 1) = r
  generalize k / (2 ^ w - 1) = q
  induction q with
  | zero => simp
  | succ q ih => rw [ih, Nat.mul_succ, ← Nat.add_assoc, genPow_add_period h]

end Sys2Proof.Machine
end

