-- ==== Sys2Proof/Laws/State.lean ====
section
/-! SUPPORT. What each update of the state leaves of each field, one lemma per field, and the slot accessors' laws. -/

namespace Sys2Proof.Machine

variable (s : State)

@[simp] theorem State.respond_maxWidth (st : Status) (v : Nat) : (s.respond st v).maxWidth = s.maxWidth := rfl
@[simp] theorem State.respond_rom (st : Status) (v : Nat) : (s.respond st v).rom = s.rom := rfl
@[simp] theorem State.respond_slots (st : Status) (v : Nat) : (s.respond st v).slots = s.slots := rfl
@[simp] theorem State.respond_pending (st : Status) (v : Nat) : (s.respond st v).pending = s.pending := rfl
@[simp] theorem State.respond_responses (st : Status) (v : Nat) :
    (s.respond st v).responses = s.responses ++ [{ status := st, value := BitVec.ofNat 32 v }] := rfl

theorem State.raiseError_eq (e : ErrorKind) : s.raiseError e = s.respond e.status 0 := rfl
@[simp] theorem State.raiseError_maxWidth (e : ErrorKind) : (s.raiseError e).maxWidth = s.maxWidth := rfl
@[simp] theorem State.raiseError_rom (e : ErrorKind) : (s.raiseError e).rom = s.rom := rfl
@[simp] theorem State.raiseError_slots (e : ErrorKind) : (s.raiseError e).slots = s.slots := rfl
@[simp] theorem State.raiseError_pending (e : ErrorKind) : (s.raiseError e).pending = s.pending := rfl
@[simp] theorem State.raiseError_responses (e : ErrorKind) :
    (s.raiseError e).responses = s.responses ++ [{ status := e.status, value := 0 }] := rfl

@[simp] theorem State.resetEngine_maxWidth : s.resetEngine.maxWidth = s.maxWidth := rfl
@[simp] theorem State.resetEngine_rom : s.resetEngine.rom = s.rom := rfl
@[simp] theorem State.resetEngine_slots : s.resetEngine.slots = s.slots.map fun _ => Slot.unbuilt := rfl
@[simp] theorem State.resetEngine_pending : s.resetEngine.pending = s.pending := rfl
@[simp] theorem State.resetEngine_responses : s.resetEngine.responses = s.responses := rfl

@[simp] theorem State.present_maxWidth (e : HostEvent) : (s.present e).maxWidth = s.maxWidth := rfl
@[simp] theorem State.present_rom (e : HostEvent) : (s.present e).rom = s.rom := rfl
@[simp] theorem State.present_slots (e : HostEvent) : (s.present e).slots = s.slots := rfl
@[simp] theorem State.present_pending (e : HostEvent) : (s.present e).pending = e :: s.pending := rfl
@[simp] theorem State.present_responses (e : HostEvent) : (s.present e).responses = s.responses := rfl

@[simp] theorem State.initial_maxWidth (c : Config) : (State.initial c).maxWidth = c.maxWidth := rfl
@[simp] theorem State.initial_rom (c : Config) : (State.initial c).rom = c.primPoly := rfl
@[simp] theorem State.initial_slots (c : Config) :
    (State.initial c).slots = List.replicate (c.maxWidth - 1) Slot.unbuilt := rfl
@[simp] theorem State.initial_pending (c : Config) : (State.initial c).pending = [] := rfl
@[simp] theorem State.initial_responses (c : Config) : (State.initial c).responses = [] := rfl

@[simp] theorem State.setSlot_maxWidth (w : Nat) (sl : Slot) : (s.setSlot w sl).maxWidth = s.maxWidth := by
  unfold State.setSlot; split <;> rfl
@[simp] theorem State.setSlot_rom (w : Nat) (sl : Slot) : (s.setSlot w sl).rom = s.rom := by
  unfold State.setSlot; split <;> rfl
@[simp] theorem State.setSlot_pending (w : Nat) (sl : Slot) : (s.setSlot w sl).pending = s.pending := by
  unfold State.setSlot; split <;> rfl
@[simp] theorem State.setSlot_responses (w : Nat) (sl : Slot) : (s.setSlot w sl).responses = s.responses := by
  unfold State.setSlot; split <;> rfl
@[simp] theorem State.setSlot_slots_length (w : Nat) (sl : Slot) :
    (s.setSlot w sl).slots.length = s.slots.length := by
  unfold State.setSlot; split <;> simp

/-! ### Slots -/

/-- A slot is read from the registry alone. -/
theorem State.slot_congr {s t : State} (h : s.slots = t.slots) (w : Nat) : s.slot w = t.slot w := by
  simp only [State.slot, h]

@[simp] theorem State.respond_slot (st : Status) (v w : Nat) : (s.respond st v).slot w = s.slot w := rfl
@[simp] theorem State.raiseError_slot (e : ErrorKind) (w : Nat) : (s.raiseError e).slot w = s.slot w := rfl
@[simp] theorem State.present_slot (e : HostEvent) (w : Nat) : (s.present e).slot w = s.slot w := rfl

/-- A width below 2 has no slot (spec/10_state.md R25). -/
theorem State.slot_of_low {w : Nat} (h : w < 2) : s.slot w = Slot.unbuilt := by simp [State.slot, h]

@[simp] theorem State.initial_slot (c : Config) (w : Nat) : (State.initial c).slot w = Slot.unbuilt := by
  unfold State.slot
  split
  · rfl
  · simp only [State.initial_slots, List.getElem?_replicate]
    split <;> rfl

@[simp] theorem State.resetEngine_slot (w : Nat) : s.resetEngine.slot w = Slot.unbuilt := by
  unfold State.slot
  split
  · rfl
  · simp only [State.resetEngine_slots, List.getElem?_map]
    cases s.slots[w - 2]? <;> rfl

/-- The slot just replaced, where the registry has it. -/
theorem State.setSlot_slot_same {w : Nat} (sl : Slot) (low : 2 ≤ w) (h : w - 2 < s.slots.length) :
    (s.setSlot w sl).slot w = sl := by
  have : ¬ w < 2 := by omega
  simp [State.slot, State.setSlot, this, h]

/-- Replacing one slot leaves every other slot alone. -/
theorem State.setSlot_slot_ne {w v : Nat} (sl : Slot) (h : v ≠ w) : (s.setSlot w sl).slot v = s.slot v := by
  unfold State.slot State.setSlot
  split
  · rfl
  · split
    · rfl
    · have : w - 2 ≠ v - 2 := by omega
      simp [List.getElem?_set_ne this]

/-- Replacements of two different slots commute. -/
theorem State.setSlot_comm {w v : Nat} (a b : Slot) (h : v ≠ w) :
    (s.setSlot w a).setSlot v b = (s.setSlot v b).setSlot w a := by
  unfold State.setSlot
  by_cases hw : w < 2 <;> by_cases hv : v < 2 <;> simp only [hw, hv, if_true, if_false]
  have : w - 2 ≠ v - 2 := by omega
  simp [List.set_comm _ _ this]

theorem State.setSlot_respond (w : Nat) (sl : Slot) (st : Status) (v : Nat) :
    (s.setSlot w sl).respond st v = (s.respond st v).setSlot w sl := by
  unfold State.setSlot
  split <;> rfl

/-! ### The other accessors -/

@[simp] theorem State.respond_validAt (st : Status) (v w : Nat) : (s.respond st v).validAt w = s.validAt w := rfl
@[simp] theorem State.respond_logAt (st : Status) (v w i : Nat) : (s.respond st v).logAt w i = s.logAt w i := rfl
@[simp] theorem State.respond_alogAt (st : Status) (v w i : Nat) : (s.respond st v).alogAt w i = s.alogAt w i := rfl
@[simp] theorem State.respond_romAt (st : Status) (v i : Nat) : (s.respond st v).romAt i = s.romAt i := rfl
@[simp] theorem State.setSlot_romAt (w : Nat) (sl : Slot) (i : Nat) : (s.setSlot w sl).romAt i = s.romAt i := by
  simp [State.romAt]
@[simp] theorem State.resetEngine_romAt (i : Nat) : s.resetEngine.romAt i = s.romAt i := rfl
@[simp] theorem State.resetEngine_validAt (w : Nat) : s.resetEngine.validAt w = false := by
  simp [State.validAt, Slot.unbuilt]
@[simp] theorem State.initial_validAt (c : Config) (w : Nat) : (State.initial c).validAt w = false := by
  simp [State.validAt, Slot.unbuilt]

end Sys2Proof.Machine
end

