-- ==== Sys2Proof/Laws/Ops.lean ====
section
/-! SUPPORT. One lemma per shared operation that says once everything it can do; provers cite these and do not unfold
the operations. -/

namespace Sys2Proof.Machine

/-! ### Sequencing -/

@[simp] theorem Res.bind_ok {α β : Type} (v : α) (k : α → Res β) : (Res.ok v).bind k = k v := rfl
@[simp] theorem Res.bind_raise {α β : Type} (e : ErrorKind) (k : α → Res β) : (Res.raise e).bind k = .raise e := rfl
@[simp] theorem Res.bind_fault {α β : Type} (f : Fault) (k : α → Res β) : (Res.fault f).bind k = .fault f := rfl

/-- A sequence that gives a value went through a value of its first part. -/
theorem Res.bind_eq_ok {α β : Type} {x : Res α} {k : α → Res β} {r : β} :
    x.bind k = .ok r ↔ ∃ v, x = .ok v ∧ k v = .ok r := by
  cases x <;> simp

/-! ### Build -/

/-- One iteration of the build loop, when its two writes land. -/
theorem buildLoop_succ {w p n log b : Nat} {L A : Table} (hb : b < 2 ^ w) (hl : log < 2 ^ w) :
    buildLoop w p (n + 1) log b L A =
      buildLoop w p n (log + 1) (advance w p b) (Table.write L b log) (Table.write A log b) := by
  simp [buildLoop, tblWrite, hb, hl]

/-- A property of the two tables that every write of the loop keeps is a property of what the loop leaves. -/
theorem buildLoop_keeps {P Q : Table → Prop} {w p : Nat}
    (hP : ∀ t i v, P t → P (Table.write t i v)) (hQ : ∀ t i v, Q t → Q (Table.write t i v)) :
    ∀ {n log b : Nat} {L A L' A' : Table}, P L → Q A → buildLoop w p n log b L A = .ok (L', A') → P L' ∧ Q A' := by
  intro n
  induction n with
  | zero =>
    intro log b L A L' A' hL hA h
    simp only [buildLoop, Res.ok.injEq, Prod.mk.injEq] at h
    exact ⟨h.1 ▸ hL, h.2 ▸ hA⟩
  | succ n ih =>
    intro log b L A L' A' hL hA h
    simp only [buildLoop, Res.bind_eq_ok, tblWrite_ok_iff] at h
    obtain ⟨t, ⟨-, rfl⟩, u, ⟨-, rfl⟩, h⟩ := h
    exact ih (hP _ _ _ hL) (hQ _ _ _ hA) h

/-- The build loop never raises an error of the engine. -/
theorem buildLoop_not_raise {w p : Nat} (e : ErrorKind) :
    ∀ {n log b : Nat} {L A : Table}, buildLoop w p n log b L A ≠ .raise e := by
  intro n
  induction n with
  | zero => intros; simp [buildLoop]
  | succ n ih =>
    intro log b L A
    simp only [buildLoop, tblWrite]
    split
    · simp only [Res.bind_ok]
      split
      · exact ih
      · simp
    · simp

/-- Build keeps the canonical form of both tables. -/
theorem build_wf {w p : Nat} {L A L' A' : Table} (hL : Table.wf L = true) (hA : Table.wf A = true)
    (h : build w p L A = .ok (L', A')) : Table.wf L' = true ∧ Table.wf A' = true :=
  buildLoop_keeps (P := fun t => Table.wf t = true) (Q := fun t => Table.wf t = true)
    Table.write_wf Table.write_wf hL hA h

/-! ### ROM and slots -/

/-- ROM lookup succeeds on the 32 indices that exist. -/
theorem readRom_ok (s : State) {i : Nat} (h : i < 32) : readRom i s = .ok (s.romAt i) := by
  simp [readRom, State.romAt, h]

/-- All that building a slot can do. -/
theorem buildSlot_cases (w : Nat) (s : State) :
    (∃ L A, w < 32 ∧ build w (s.romAt w) (s.slot w).log (s.slot w).alog = .ok (L, A) ∧
      buildSlot w s = .ok (s.setSlot w { valid := true, log := L, alog := A })) ∨
    (∃ f, w < 32 ∧ build w (s.romAt w) (s.slot w).log (s.slot w).alog = .fault f ∧ buildSlot w s = .fault f) ∨
    (32 ≤ w ∧ buildSlot w s = .fault (.noSuchEntry .rom 0 w)) := by
  by_cases h : w < 32
  · simp only [buildSlot, readRom_ok s h, Res.bind_ok]
    cases hb : build w (s.romAt w) (s.slot w).log (s.slot w).alog with
    | ok t => exact .inl ⟨t.1, t.2, h, rfl, rfl⟩
    | raise e => exact absurd hb (buildLoop_not_raise e)
    | fault f => exact .inr (.inl ⟨f, h, rfl, rfl⟩)
  · refine .inr (.inr ⟨by omega, ?_⟩)
    have : s.rom[w]? = none := by simp; omega
    simp [buildSlot, readRom, this]

theorem badWidth_iff {m w : Nat} : badWidth m w = true ↔ w < 2 ∨ m < w := by simp [badWidth]
theorem badWidth_eq_false_iff {m w : Nat} : badWidth m w = false ↔ 2 ≤ w ∧ w ≤ m := by
  simp only [badWidth, Bool.or_eq_false_iff, decide_eq_false_iff_not]; omega

/-- A bad width is refused before anything else. -/
theorem lookup_of_bad {w : Nat} {s : State} (h : w < 2 ∨ s.maxWidth < w) : lookup w s = .raise .outOfRange := by
  simp [lookup, badWidth_iff.2 h]

/-- A built slot is found and nothing changes. -/
theorem lookup_of_built {w : Nat} {s : State} (low : 2 ≤ w) (high : w ≤ s.maxWidth) (h : s.validAt w = true) :
    lookup w s = .ok s := by
  simp [lookup, badWidth_eq_false_iff.2 ⟨low, high⟩, h]

/-- All that a successful `Lookup(w)` can have done. -/
theorem lookup_ok_cases {w : Nat} {s t : State} (h : lookup w s = .ok t) :
    (2 ≤ w ∧ w ≤ s.maxWidth) ∧
    ((s.validAt w = true ∧ t = s) ∨
      (s.validAt w = false ∧ ∃ L A, build w (s.romAt w) (s.slot w).log (s.slot w).alog = .ok (L, A) ∧
        t = s.setSlot w { valid := true, log := L, alog := A })) := by
  unfold lookup at h
  split at h
  · cases h
  · next hb =>
    have hb := badWidth_eq_false_iff.1 (by simpa using hb)
    refine ⟨hb, ?_⟩
    split at h
    · next hv => cases h; exact .inl ⟨hv, rfl⟩
    · next hv =>
      rcases buildSlot_cases w s with ⟨L, A, -, hok, he⟩ | ⟨f, -, -, he⟩ | ⟨-, he⟩ <;> rw [he] at h <;> cases h
      exact .inr ⟨by simpa using hv, L, A, hok, rfl⟩

/-- `Lookup(w)` raises nothing but OutOfRange, and only for a bad width. -/
theorem lookup_raise_cases {w : Nat} {s : State} {e : ErrorKind} (h : lookup w s = .raise e) :
    e = .outOfRange ∧ (w < 2 ∨ s.maxWidth < w) := by
  unfold lookup at h
  split at h
  · next hb => cases h; exact ⟨rfl, badWidth_iff.1 hb⟩
  · split at h
    · cases h
    · rcases buildSlot_cases w s with ⟨L, A, -, -, he⟩ | ⟨f, -, -, he⟩ | ⟨-, he⟩ <;> rw [he] at h <;> cases h

/-! ### Commands -/

/-- The procedure a command runs after its `Lookup`. -/
def Instr.body : Instr → State → Res Nat
  | .getf w => fun _ => .ok (fieldSize w)
  | .mul w a b => mulCore w a b
  | .div w a b => divCore w a b
  | .exp w a e => expCore w a e
  | .logrd w i => logrdCore w i
  | .alogrd w i => alogrdCore w i

/-- A command's procedure reads nothing of the state but the slot of its own width. -/
theorem Instr.body_congr (i : Instr) {s t : State} (h : s.slot i.width = t.slot i.width) :
    Instr.body i s = Instr.body i t := by
  have hm : ∀ a b, mulCore i.width a b s = mulCore i.width a b t := by
    intro a b
    simp only [mulCore, readLog, readAlog, h]
  cases i with
  | getf w => rfl
  | mul w a b => exact hm a b
  | div w a b =>
    simp only [Instr.width] at h
    simp only [Instr.body, divCore, readLog, readAlog, h]
  | exp w a e =>
    have hl : ∀ n r, expLoop w a s n r = expLoop w a t n r := by
      intro n
      induction n with
      | zero => intro r; rfl
      | succ n ih =>
        intro r
        simp only [expLoop]
        rw [show mulCore w r a s = mulCore w r a t from hm r a]
        cases mulCore w r a t <;> simp [ih]
    simp only [Instr.body, expCore, hl]
  | logrd w j =>
    simp only [Instr.width] at h
    simp only [Instr.body, logrdCore, readLog, h]
  | alogrd w j =>
    simp only [Instr.width] at h
    simp only [Instr.body, alogrdCore, readAlog, h]

/-- Every command is `Lookup(w)` and then its own procedure (spec/92_eei_decisions.md D8). -/
theorem exec_eq (i : Instr) (s : State) : exec i s = withTable i.width (Instr.body i) s := by
  cases i <;> rfl

/-- All that a command's frame can do when it answers a next state. -/
theorem withTable_next_cases {w : Nat} {body : State → Res Nat} {s t : State} (h : withTable w body s = .next t) :
    ((w < 2 ∨ s.maxWidth < w) ∧ t = s.raiseError .outOfRange) ∨
    (∃ u, lookup w s = .ok u ∧
      ((∃ v, body u = .ok v ∧ t = u.respond .ok v) ∨ (∃ e, body u = .raise e ∧ t = u.raiseError e))) := by
  unfold withTable at h
  split at h
  · next u hu =>
    refine .inr ⟨u, hu, ?_⟩
    unfold finish at h
    split at h
    · next v hv => cases h; exact .inl ⟨v, hv, rfl⟩
    · next e he => cases h; exact .inr ⟨e, he, rfl⟩
    · cases h
  · next e he =>
    cases h
    obtain ⟨rfl, hw⟩ := lookup_raise_cases he
    exact .inl ⟨hw, rfl⟩
  · cases h

/-- A command on a bad width: one OUT_OF_RANGE response and nothing else. -/
theorem exec_of_bad {i : Instr} {s : State} (h : i.width < 2 ∨ s.maxWidth < i.width) :
    exec i s = .next (s.respond .outOfRange 0) := by
  rw [exec_eq, withTable, lookup_of_bad h]
  rfl

/-- A command whose `Lookup` succeeds ends as its own procedure does. -/
theorem exec_of_lookup {i : Instr} {s u : State} (h : lookup i.width s = .ok u) :
    exec i s = finish (Instr.body i u) u := by
  rw [exec_eq, withTable, h]

/-! ### Steps -/

/-- The next command, when it decodes, is run on the state it has been taken from. -/
theorem step_command {s : State} {c : CommandWord} {i : Instr} (h : decode c = .ok i) :
    step (s.present (.command c)) = exec i s := by
  simp only [step, takeEvent, State.present_pending, h]
  rfl

/-- A word that spells no command. -/
theorem step_illegal {s : State} {c : CommandWord} {x : IllegalWord} (h : decode c = .error x) :
    step (s.present (.command c)) = .next (s.raiseError .illegalCommand) := by
  simp only [step, takeEvent, State.present_pending, h]
  rfl

/-- Every state with a pending event is one the event has just been presented to. -/
theorem State.eq_present {s : State} {e : HostEvent} {rest : List HostEvent} (h : s.pending = e :: rest) :
    s = ({ s with pending := rest } : State).present e := by
  cases s; simp_all [State.present]

/-- All that a step can do when it answers a next state. -/
theorem step_next_cases {s t : State} (h : step s = .next t) :
    (s.pending = [] ∧ t = s) ∨
    (∃ e rest, s.pending = e :: rest ∧
      ((∃ c i, e = .command c ∧ decode c = .ok i ∧ exec i { s with pending := rest } = .next t) ∨
       (∃ c x, e = .command c ∧ decode c = .error x ∧
          t = ({ s with pending := rest } : State).raiseError .illegalCommand) ∨
       ((e = .reset ∨ ∃ c, e = .cutCommand c) ∧ t = ({ s with pending := rest } : State).resetEngine))) := by
  cases hp : s.pending with
  | nil =>
    simp only [step, takeEvent, hp] at h
    cases h
    exact .inl ⟨rfl, rfl⟩
  | cons e rest =>
    refine .inr ⟨e, rest, rfl, ?_⟩
    simp only [step, takeEvent, hp] at h
    cases e with
    | command c =>
      cases hd : decode c with
      | ok i => simp only [hd] at h; exact .inl ⟨c, i, rfl, hd, h⟩
      | error x => simp only [hd, execIllegal] at h; cases h; exact .inr (.inl ⟨c, x, rfl, hd, rfl⟩)
    | reset => cases h; exact .inr (.inr ⟨.inl rfl, rfl⟩)
    | cutCommand c => cases h; exact .inr (.inr ⟨.inr ⟨c, rfl⟩, rfl⟩)

/-! ### The memory's canonical form -/

theorem Memory.wf_iff (m : Memory) :
    Memory.wf m = true ↔ ∀ sl ∈ m, Table.wf sl.log = true ∧ Table.wf sl.alog = true := by
  simp [Memory.wf]

theorem Slot.unbuilt_wf : Table.wf Slot.unbuilt.log = true ∧ Table.wf Slot.unbuilt.alog = true := by decide

/-- Every slot of a memory in canonical form is so. -/
theorem State.slot_wf {s : State} (h : Memory.wf s.slots = true) (w : Nat) :
    Table.wf (s.slot w).log = true ∧ Table.wf (s.slot w).alog = true := by
  unfold State.slot
  split
  · exact Slot.unbuilt_wf
  · cases hg : s.slots[w - 2]? with
    | none => exact Slot.unbuilt_wf
    | some sl => exact (Memory.wf_iff _).1 h sl (List.mem_of_getElem? hg)

/-- Replacing a slot by one in canonical form keeps the memory so. -/
theorem State.setSlot_wf {s : State} (w : Nat) {sl : Slot} (h : Memory.wf s.slots = true)
    (hl : Table.wf sl.log = true) (ha : Table.wf sl.alog = true) : Memory.wf (s.setSlot w sl).slots = true := by
  unfold State.setSlot
  split
  · exact h
  · rw [Memory.wf_iff] at *
    intro x hx
    rcases List.mem_or_eq_of_mem_set hx with hx | rfl
    · exact h x hx
    · exact ⟨hl, ha⟩

/-- Reset leaves the memory in canonical form. -/
theorem State.resetEngine_wf (s : State) : Memory.wf s.resetEngine.slots = true := by
  rw [Memory.wf_iff]
  intro sl h
  obtain ⟨x, -, rfl⟩ := List.mem_map.1 h
  exact Slot.unbuilt_wf

/-- `Lookup` keeps the memory's canonical form. -/
theorem lookup_keeps_wf {w : Nat} {s t : State} (h : lookup w s = .ok t) (hw : Memory.wf s.slots = true) :
    Memory.wf t.slots = true := by
  obtain ⟨-, ⟨-, rfl⟩ | ⟨-, L, A, hb, rfl⟩⟩ := lookup_ok_cases h
  · exact hw
  · obtain ⟨hl, ha⟩ := State.slot_wf hw w
    obtain ⟨h1, h2⟩ := build_wf hl ha hb
    exact State.setSlot_wf w hw h1 h2

end Sys2Proof.Machine
end

