-- ==== Sys2Proof/Laws/PerInstr.lean ====
section
/-! SUPPORT. Statements about every command as syntax, one lemma per constructor. Family `HeaderFields`: the encoded
word of a command carries its opcode, its width and a zero `RSV` field (spec/30_encoding.md R80, R85). -/

namespace Sys2Proof.Laws.HeaderFields

open Sys2Proof

/-- The opcode of a command (spec/30_encoding.md R85). -/
def opcode : Instr → BitVec 8
  | .getf _ => 0x01
  | .mul _ _ _ => 0x02
  | .div _ _ _ => 0x03
  | .exp _ _ _ => 0x04
  | .logrd _ _ => 0x05
  | .alogrd _ _ => 0x06

/-- The encoding's low 32 bits are the header the spec gives the command. -/
def Statement (i : Instr) : Prop :=
  opcField (encode i) = opcode i ∧ wField (encode i) = BitVec.ofNat 8 i.width ∧ rsvField (encode i) = 0

theorem opcField_packCommand (opc w a b : Nat) : opcField (packCommand opc w a b) = BitVec.ofNat 8 opc := by
  unfold opcField packCommand
  ext k hk
  simp only [BitVec.getElem_extractLsb', BitVec.getLsbD_append]
  simp [hk]

theorem wField_packCommand (opc w a b : Nat) : wField (packCommand opc w a b) = BitVec.ofNat 8 w := by
  unfold wField packCommand
  ext k hk
  simp only [BitVec.getElem_extractLsb', BitVec.getLsbD_append]
  have h1 : ¬ 8 + k < 8 := by omega
  simp [h1, hk]

theorem rsvField_packCommand (opc w a b : Nat) : rsvField (packCommand opc w a b) = 0 := by
  unfold rsvField packCommand
  ext k hk
  simp only [BitVec.getElem_extractLsb', BitVec.getLsbD_append]
  have h1 : ¬ 16 + k < 8 := by omega
  have h2 : ¬ 16 + k - 8 < 8 := by omega
  have h3 : 16 + k - 8 - 8 < 16 := by omega
  simp [h1, h2, h3]

/-- The header of any packed word. -/
theorem header_packCommand (opc w a b : Nat) :
    opcField (packCommand opc w a b) = BitVec.ofNat 8 opc ∧ wField (packCommand opc w a b) = BitVec.ofNat 8 w ∧
      rsvField (packCommand opc w a b) = 0 :=
  ⟨opcField_packCommand opc w a b, wField_packCommand opc w a b, rsvField_packCommand opc w a b⟩

theorem getf (w : Nat) : Statement (.getf w) := header_packCommand 0x01 w 0 0
theorem mul (w a b : Nat) : Statement (.mul w a b) := header_packCommand 0x02 w a b
theorem div (w a b : Nat) : Statement (.div w a b) := header_packCommand 0x03 w a b
theorem exp (w a e : Nat) : Statement (.exp w a e) := header_packCommand 0x04 w a e
theorem logrd (w i : Nat) : Statement (.logrd w i) := header_packCommand 0x05 w i 0
theorem alogrd (w i : Nat) : Statement (.alogrd w i) := header_packCommand 0x06 w i 0

end Sys2Proof.Laws.HeaderFields
end

