-- ==== Sys2Proof/Tests/Slice0.lean ====
section
/-! SUPPORT. Small tests, each against spec/95_test_vectors.md or a word written out from spec/30_encoding.md, and for
each statement with hypotheses a concrete state and operands that meet them. -/

namespace Sys2Proof.Tests

open Sys2Proof Sys2Proof.Machine

/-! ### Helpers -/

/-- What the decoder reads, if it accepts. -/
def read (c : CommandWord) : Option Instr :=
  match decode c with
  | .ok i => some i
  | .error _ => none

/-- Why the decoder refuses, if it does. -/
def why (c : CommandWord) : Option IllegalWord :=
  match decode c with
  | .ok _ => none
  | .error x => some x

/-- The response an outcome ends in. -/
def answer (o : Host.Outcome State Fault Refusal) : Option Response :=
  match o with
  | .next t => t.responses.getLast?
  | .fault _ => none
  | .refused _ => none

/-- The fault an outcome ends in. -/
def faultOf (o : Host.Outcome State Fault Refusal) : Option Fault :=
  match o with
  | .next _ => none
  | .fault f => some f
  | .refused _ => none

/-- A small engine right after reset: MAX_WIDTH 3 over the candidate ROM. -/
def demo : State := State.initial { maxWidth := 3, primPoly := Config.candidatePoly }

/-- The built slot of width 2 (spec/95_test_vectors.md section 2.1). -/
def slot2 : Slot :=
  { valid := true, log := #[none, some 3, some 1, some 2], alog := #[some 1, some 2, some 3, some 1] }

/-- The small engine with slot 2 built. -/
def demoBuilt : State := demo.setSlot 2 slot2

/-! ### Well-formedness: an ill-formed term for each check -/

theorem test_wf_getf_width : (Instr.getf 256).wf = false := by decide
theorem test_wf_mul_width : (Instr.mul 256 1 1).wf = false := by decide
theorem test_wf_mul_a : (Instr.mul 2 (2 ^ 32) 1).wf = false := by decide
theorem test_wf_mul_b : (Instr.mul 2 1 (2 ^ 32)).wf = false := by decide
theorem test_wf_div_width : (Instr.div 256 1 1).wf = false := by decide
theorem test_wf_div_a : (Instr.div 2 (2 ^ 32) 1).wf = false := by decide
theorem test_wf_div_b : (Instr.div 2 1 (2 ^ 32)).wf = false := by decide
theorem test_wf_exp_width : (Instr.exp 256 1 1).wf = false := by decide
theorem test_wf_exp_a : (Instr.exp 2 (2 ^ 32) 1).wf = false := by decide
theorem test_wf_exp_e : (Instr.exp 2 1 (2 ^ 32)).wf = false := by decide
theorem test_wf_logrd_width : (Instr.logrd 256 1).wf = false := by decide
theorem test_wf_logrd_i : (Instr.logrd 2 (2 ^ 32)).wf = false := by decide
theorem test_wf_alogrd_width : (Instr.alogrd 256 1).wf = false := by decide
theorem test_wf_alogrd_i : (Instr.alogrd 2 (2 ^ 32)).wf = false := by decide
/-- A bad width and a bad element are well-formed: they are results of execution (spec/30_encoding.md R85). -/
theorem test_wf_bad_width_is_wellformed : (Instr.mul 255 4294967295 99).wf = true := by decide

/-! ### Decoding: words written out field by field, `B_A_RSV_W_OPC` (spec/30_encoding.md R80) -/

theorem test_decode_getf : read 0x00000000_00000000_0000_02_01 = some (.getf 2) := by decide
theorem test_decode_mul : read 0x00000053_000000F2_0000_08_02 = some (.mul 8 242 83) := by decide
theorem test_decode_div : read 0x00000000_00000005_0000_63_03 = some (.div 99 5 0) := by decide
theorem test_decode_exp : read 0x00000002_00000053_0000_08_04 = some (.exp 8 83 2) := by decide
theorem test_decode_logrd : read 0x00000000_00000001_0000_18_05 = some (.logrd 24 1) := by decide
theorem test_decode_alogrd : read 0x00000000_01000000_0000_18_06 = some (.alogrd 24 16777216) := by decide
/-- The table's encoding of MUL bit by bit, `b` = 0x80000001, `a` = 3, `w` = 0b10000010. -/
theorem test_decode_mul_bits :
    read 0b10000000000000000000000000000001_00000000000000000000000000000011_0000000000000000_10000010_00000010 =
      some (.mul 130 3 0x80000001) := by decide
theorem test_decode_zero_word : why 0x00000000_00000000_00000000 = some (.unknownOpcode 0) := by decide
theorem test_decode_opcode_seven : why 0x00000000_00000000_00000207 = some (.unknownOpcode 7) := by decide
theorem test_decode_reserved : why 0x00000002_00000002_80000202 = some .reservedNotZero := by decide
theorem test_decode_getf_a : why 0x00000000_00000001_00000201 = some (.unusedNotZero 1) := by decide
theorem test_decode_getf_b : why 0x00000001_00000000_00000201 = some (.unusedNotZero 1) := by decide
theorem test_decode_logrd_b : why 0x00000001_00000001_00000205 = some (.unusedNotZero 5) := by decide
theorem test_decode_alogrd_b : why 0x00000001_00000001_00000206 = some (.unusedNotZero 6) := by decide
theorem test_encode_div : encode (.div 8 198 83) = 0x00000053_000000C6_00000803 := by decide
theorem test_decodeTableWord_short : decodeTableWord 16 0x0201 = some (.getf 2) := by decide

/-! ### Commands from reset (spec/95_test_vectors.md) -/

theorem test_getf_size : answer (exec (.getf 2) State.reset) = some ⟨.ok, 4⟩ := by decide
theorem test_getf_bad_width : answer (exec (.getf 25) State.reset) = some ⟨.outOfRange, 0⟩ := by decide
theorem test_mul_one_one : answer (exec (.mul 2 1 1) State.reset) = some ⟨.ok, 1⟩ := by decide
theorem test_mul_width_eight : answer (exec (.mul 8 83 202) State.reset) = some ⟨.ok, 143⟩ := by decide +kernel
theorem test_div_negative_difference : answer (exec (.div 2 2 3) State.reset) = some ⟨.ok, 3⟩ := by decide
theorem test_div_zero_beats_range : answer (exec (.div 2 99 0) State.reset) = some ⟨.divByZero, 0⟩ := by decide
theorem test_exp_unvalidated_base : answer (exec (.exp 2 99 1) State.reset) = some ⟨.ok, 99⟩ := by decide
theorem test_exp_order_three : answer (exec (.exp 4 7 3) State.reset) = some ⟨.ok, 1⟩ := by decide
theorem test_logrd_one_is_last : answer (exec (.logrd 3 1) State.reset) = some ⟨.ok, 7⟩ := by decide
theorem test_logrd_zero : answer (exec (.logrd 2 0) State.reset) = some ⟨.illegalCmd, 0⟩ := by decide
theorem test_alogrd_duplicate : answer (exec (.alogrd 2 3) State.reset) = some ⟨.ok, 1⟩ := by decide
theorem test_alogrd_outside : answer (exec (.alogrd 2 4) State.reset) = some ⟨.outOfRange, 0⟩ := by decide
theorem test_response_word : (Response.mk .ok 16777216).word = 0x0100000000 := by decide
theorem test_fetch_word : answer (step (State.reset.withFetchWord 96 0x00000002_00000002_00000202)) = some ⟨.ok, 3⟩ := by
  decide
theorem test_build_two : lookup 2 demo = .ok demoBuilt := by rfl
theorem test_reset_event : step (demoBuilt.present .reset) = .next demo := by rfl
/-- A polynomial that violates spec/10_state.md R22 (here 8 at width 2) leads out of the table, where the model stops. -/
theorem test_bad_polynomial_faults : build 2 8 #[] #[] = .fault (.noSuchEntry .log 2 12) := by decide
theorem test_unwritten_read_faults : faultOf (withTable 2 (readLog 2 0) State.reset) = some (.unwrittenEntry .log 2 0) := by
  decide

/-! ### The small engine meets the hypotheses -/

theorem demo_inv : demo.Inv where
  widths := by decide
  bank := by decide
  built := fun w _ _ h => by simp [demo] at h
  unbuilt := fun w _ _ _ => by simp [demo]

theorem primitive_two : PrimitiveAt 2 7 := ⟨by decide, by decide, by decide, by decide⟩
theorem primitive_three : PrimitiveAt 3 11 := ⟨by decide, by decide, by decide, by decide⟩

theorem demo_romPrimitive : demo.RomPrimitive := by
  intro w hi lo
  have hi : w ≤ 3 := hi
  obtain rfl | rfl : w = 2 ∨ w = 3 := by omega
  · exact primitive_two
  · exact primitive_three

theorem demoBuilt_inv : demoBuilt.Inv where
  widths := by decide
  bank := by decide
  built := fun w hi lo h => by
    have hi : w ≤ 3 := hi
    obtain rfl | rfl : w = 2 ∨ w = 3 := by omega
    · rfl
    · exact absurd h (by decide)
  unbuilt := fun w hi lo h => by
    have hi : w ≤ 3 := hi
    obtain rfl | rfl : w = 2 ∨ w = 3 := by omega
    · exact absurd h (by decide)
    · rfl

theorem demo_serves_two : demo.Serves 2 := ⟨demo_inv, by decide, by decide, primitive_two⟩
theorem demo_serves_three : demo.Serves 3 := ⟨demo_inv, by decide, by decide, primitive_three⟩
theorem demoBuilt_serves : demoBuilt.Serves 2 := ⟨demoBuilt_inv, by decide, by decide, primitive_two⟩
theorem demoBuilt_valid : demoBuilt.validAt 2 = true := by decide

/-! ### Witnesses, one per statement with hypotheses -/

theorem witness_StepRunsTheDecodedCommand :
    (demo.present (.command 0x201)).pending = .command 0x201 :: [] ∧ read 0x201 = some (.getf 2) ∧
      decodeTableWord 96 0x201 = some (.getf 2) := by decide
theorem witness_ResponseWordLayout :
    step (demoBuilt.present (.command 0x203)) = .next (demoBuilt.respond .divByZero 0) := by rfl
theorem witness_DecodeIsTheOpcodeMap :
    (0x201 &&& 0xFFFFFFFFFFFFFFFFFFFF00FF : CommandWord) = 0x1 ∧
      (⟨"GETF", 0xFFFFFFFFFFFFFFFFFFFF00FF, 0x1⟩ : OpcodeRow) ∈ opcodeRows ∧
      (⟨"GETF", 0xFFFFFFFFFFFFFFFFFFFF00FF, 0x1⟩ : OpcodeRow).accepts 0x201 = true := by decide
theorem witness_IllegalWordsChangeNothing :
    why 0x100000200 = some (.unknownOpcode 0) ∧ why 0x207 = some (.unknownOpcode 7) ∧
      why 0x10202 = some .reservedNotZero ∧ why 0x100000201 = some (.unusedNotZero 1) ∧
      why 0x10000000000000205 = some (.unusedNotZero 5) ∧ why 0x10000000000000206 = some (.unusedNotZero 6) := by decide
theorem witness_DecodeEncodeRoundTrip :
    (Instr.exp 255 4294967295 4294967295).wf = true ∧
      read (encode (.exp 255 4294967295 4294967295)) = some (.exp 255 4294967295 4294967295) := by decide
theorem witness_ResetEventClearsEverySlot :
    step (demoBuilt.present (.command 0x203)) = .next (demoBuilt.respond .divByZero 0) ∧
      demoBuilt.validAt 2 = true := ⟨rfl, by decide⟩
theorem witness_IdleEngineHoldsItsState : demoBuilt.pending = [] := by decide
theorem witness_StepKeepsConfiguration :
    step (demo.present (.command 0x201)) = .next (demoBuilt.respond .ok 4) := by rfl
theorem witness_StepKeepsTheInvariant :
    (demo.present (.command 0x201)).Inv ∧
      step (demo.present (.command 0x201)) = .next (demoBuilt.respond .ok 4) :=
  ⟨⟨demo_inv.widths, demo_inv.bank, demo_inv.built, demo_inv.unbuilt⟩, rfl⟩
theorem witness_InitialStateMeetsTheInvariant :
    (2 ≤ (Config.mk 2 Config.candidatePoly).maxWidth ∧ (Config.mk 2 Config.candidatePoly).maxWidth ≤ 31) ∧
      2 ≤ (Config.mk 31 Config.candidatePoly).maxWidth ∧ (Config.mk 31 Config.candidatePoly).maxWidth ≤ 31 := by decide
theorem witness_StepKeepsMemoryCanonical :
    Memory.wf (demo.present (.command 0x201)).slots = true ∧
      step (demo.present (.command 0x201)) = .next (demoBuilt.respond .ok 4) := ⟨by decide, rfl⟩
theorem witness_ReachableRegistryHoldsBuilds :
    Sys2Proof.core.run 1 ({ demo with pending := [.command 0x201] } : State) = .next (demoBuilt.respond .ok 4) ∧
      (demoBuilt.respond .ok 4).validAt 2 = true := ⟨rfl, by decide⟩
theorem witness_EveryCommandAnswersOnce : demo.Inv ∧ demo.RomPrimitive := ⟨demo_inv, demo_romPrimitive⟩
theorem witness_RomEntryTwoIsForced : demo.Inv ∧ demo.RomPrimitive := ⟨demo_inv, demo_romPrimitive⟩
theorem witness_CandidateRomIsPrimitive : 2 ≤ 2 ∧ 2 ≤ 31 ∧ 31 ≤ 31 := by decide
theorem witness_BuildTableContents : 2 ≤ 2 ∧ PrimitiveAt 2 7 ∧ 2 ≤ 3 ∧ PrimitiveAt 3 11 :=
  ⟨by decide, primitive_two, by decide, primitive_three⟩
theorem witness_BuildIntermediatesAreBounded : 2 ≤ 2 ∧ PrimitiveAt 2 7 ∧ 2 ≤ 31 :=
  ⟨by decide, primitive_two, by decide⟩
theorem witness_BuildStoresOnlyItsEntries :
    build 2 7 #[] #[] = .ok (slot2.log, slot2.alog) ∧ (∀ k < 2 ^ 2, genPow 2 7 k ≠ 0) ∧
      (∀ k < 2 ^ 2, genPow 2 7 k ≠ 4) ∧ 2 ^ 2 ≤ 4 := by decide
theorem witness_BuiltSlotInvariants : demoBuilt.Serves 2 ∧ demoBuilt.validAt 2 = true :=
  ⟨demoBuilt_serves, demoBuilt_valid⟩
theorem witness_TableEntriesFitTheirWidth :
    demoBuilt.Serves 2 ∧ demoBuilt.logAt 2 1 = some 3 ∧ demoBuilt.alogAt 2 2 = some 3 :=
  ⟨demoBuilt_serves, by decide, by decide⟩
theorem witness_LookupFollowsItsRule :
    (1 < 2 ∧ demo.maxWidth < 4) ∧ (2 ≤ 2 ∧ 2 ≤ demoBuilt.maxWidth ∧ demoBuilt.validAt 2 = true) ∧
      demo.Serves 2 ∧ demo.Serves 3 := ⟨by decide, by decide, demo_serves_two, demo_serves_three⟩
theorem witness_GetfFollowsItsRule : (1 < 2 ∧ demo.maxWidth < 4) ∧ demo.Serves 2 ∧ demo.Serves 3 :=
  ⟨by decide, demo_serves_two, demo_serves_three⟩
theorem witness_MulCoreFollowsItsRule :
    (3 ≠ 0 ∧ 1 ≠ 0 ∧ 2 ^ 2 ≤ 4) ∧ (demoBuilt.Serves 2 ∧ demoBuilt.validAt 2 = true) ∧ 3 < 2 ^ 2 ∧ 1 < 2 ^ 2 :=
  ⟨by decide, ⟨demoBuilt_serves, demoBuilt_valid⟩, by decide, by decide⟩
theorem witness_MulFollowsItsRule :
    (1 < 2 ∧ demo.maxWidth < 4) ∧ demo.Serves 2 ∧ demoBuilt.Serves 2 ∧ 2 ^ 2 ≤ 4 ∧ 3 < 2 ^ 2 ∧ 3 ≠ 0 :=
  ⟨by decide, demo_serves_two, demoBuilt_serves, by decide, by decide, by decide⟩
theorem witness_DivCoreFollowsItsRule :
    (3 ≠ 0 ∧ 1 ≠ 0 ∧ 2 ^ 2 ≤ 4) ∧ (demoBuilt.Serves 2 ∧ demoBuilt.validAt 2 = true) ∧ 3 < 2 ^ 2 ∧ 1 < 2 ^ 2 :=
  ⟨by decide, ⟨demoBuilt_serves, demoBuilt_valid⟩, by decide, by decide⟩
theorem witness_DivFollowsItsRule :
    (1 < 2 ∧ demo.maxWidth < 4) ∧ demo.Serves 2 ∧ demoBuilt.Serves 2 ∧ 2 ^ 2 ≤ 4 ∧ 3 < 2 ^ 2 ∧ 3 ≠ 0 ∧ 2 ≤ 2 ∧ 2 < 2 ^ 2 :=
  ⟨by decide, demo_serves_two, demoBuilt_serves, by decide, by decide, by decide, by decide, by decide⟩
/-- The powers 3, 2, 1 of 3 at width 2 are a run of multiplications; 4 at width 2 ends one at its first step. -/
theorem witness_ExpCoreFollowsItsRule :
    (2 ≤ 3 ∧ mulCore 2 3 3 demoBuilt = .ok 2 ∧ mulCore 2 2 3 demoBuilt = .ok 1) ∧
      (2 ≤ 2 ∧ 0 < 2 - 1 ∧ mulCore 2 4 4 demoBuilt = .raise .outOfRange) := by decide
theorem witness_ExpFollowsItsRule :
    (1 < 2 ∧ demo.maxWidth < 4) ∧ demo.Serves 2 ∧ demoBuilt.Serves 2 ∧ 2 ≤ 2 ∧ 2 ^ 2 ≤ 4 ∧ 3 ≠ 0 ∧ 3 < 2 ^ 2 :=
  ⟨by decide, demo_serves_two, demoBuilt_serves, by decide, by decide, by decide, by decide⟩
theorem witness_LogrdFollowsItsRule :
    (1 < 2 ∧ demo.maxWidth < 4) ∧ demo.Serves 2 ∧ demoBuilt.Serves 2 ∧ 2 ^ 2 ≤ 4 ∧ 1 ≤ 1 ∧ 3 < 2 ^ 2 :=
  ⟨by decide, demo_serves_two, demoBuilt_serves, by decide, by decide, by decide⟩
theorem witness_AlogrdFollowsItsRule :
    (1 < 2 ∧ demo.maxWidth < 4) ∧ demo.Serves 2 ∧ demoBuilt.Serves 2 ∧ 2 ^ 2 ≤ 4 ∧ 0 < 2 ^ 2 ∧ 3 < 2 ^ 2 :=
  ⟨by decide, demo_serves_two, demoBuilt_serves, by decide, by decide, by decide⟩
theorem witness_CommandFrame :
    exec (.getf 2) demo = .next (demoBuilt.respond .ok 4) ∧ 3 ≠ (Instr.getf 2).width ∧
      exec (.mul 2 3 3) demoBuilt = .next (demoBuilt.respond .ok 2) ∧
      demoBuilt.validAt (Instr.mul 2 3 3).width = true := ⟨rfl, by decide, rfl, by decide⟩
theorem witness_CommandStoresOnlyBuildEntries :
    exec (.getf 2) demo = .next (demoBuilt.respond .ok 4) ∧ (∀ k < 2 ^ 2, genPow 2 (demo.romAt 2) k ≠ 0) ∧ 2 ^ 2 ≤ 4 :=
  ⟨rfl, by decide, by decide⟩
theorem witness_ErrorsLeaveSharedState : exec (.div 2 1 0) demo = .next (demoBuilt.respond .divByZero 0) := by rfl
theorem witness_SlotLifecycle :
    (step (demoBuilt.present (.command 0x203)) = .next (demoBuilt.respond .divByZero 0) ∧
      demoBuilt.validAt 2 = true) ∧
    (step (demo.present (.command 0x201)) = .next (demoBuilt.respond .ok 4) ∧ demo.validAt 2 = false ∧
      (demoBuilt.respond .ok 4).validAt 2 = true) ∧
    (step (demoBuilt.present .reset) = .next demo ∧ (demoBuilt.present .reset).validAt 2 = true) :=
  ⟨⟨rfl, by decide⟩, ⟨rfl, by decide, by decide⟩, rfl, by decide⟩
theorem witness_ReadsAreIdempotent :
    exec (.logrd 2 3) demoBuilt = .next (demoBuilt.respond .ok 2) ∧
      demoBuilt.validAt (Instr.logrd 2 3).width = true ∧ demoBuilt.Serves (Instr.logrd 2 3).width ∧
      step (demoBuilt.present (.command 0x203)) = .next (demoBuilt.respond .divByZero 0) :=
  ⟨rfl, by decide, demoBuilt_serves, rfl⟩
theorem witness_OutOfRangeExactlyWhen : demo.Inv ∧ demo.RomPrimitive := ⟨demo_inv, demo_romPrimitive⟩
theorem witness_DivideByZeroExactlyWhen : demo.Inv ∧ demo.RomPrimitive := ⟨demo_inv, demo_romPrimitive⟩
theorem witness_IllegalCommandExactlyWhen :
    demo.Inv ∧ demo.RomPrimitive ∧ read 0x205 = some (.logrd 2 0) ∧ 2 ≤ 2 ∧ 2 ≤ demo.maxWidth :=
  ⟨demo_inv, demo_romPrimitive, by decide, by decide, by decide⟩
theorem witness_MultiplicationLaws :
    demoBuilt.Serves 2 ∧ demoBuilt.validAt 2 = true ∧ 3 < 2 ^ 2 ∧ 0 < 2 ^ 2 :=
  ⟨demoBuilt_serves, demoBuilt_valid, by decide, by decide⟩
theorem witness_MultiplicationIsPolynomialMultiplication :
    demoBuilt.Serves 2 ∧ demoBuilt.validAt 2 = true ∧ 3 < 2 ^ 2 ∧ polyMul 2 7 2 3 3 = 2 :=
  ⟨demoBuilt_serves, demoBuilt_valid, by decide, by decide⟩
theorem witness_DivisionLaws :
    demoBuilt.Serves 2 ∧ demoBuilt.validAt 2 = true ∧ 3 ≠ 0 ∧ 1 ≠ 0 ∧ 3 < 2 ^ 2 ∧ 1 < 2 ^ 2 :=
  ⟨demoBuilt_serves, demoBuilt_valid, by decide, by decide, by decide, by decide⟩
theorem witness_ExponentiationClosedForm :
    demoBuilt.Serves 2 ∧ demoBuilt.validAt 2 = true ∧ 2 ≤ 2 ∧ 3 ≠ 0 ∧ 3 < 2 ^ 2 ∧ 0 % (2 ^ 2 - 1) = 3 % (2 ^ 2 - 1) :=
  ⟨demoBuilt_serves, demoBuilt_valid, by decide, by decide, by decide, by decide⟩
theorem witness_LogSumBounds :
    demoBuilt.Serves 2 ∧ demoBuilt.validAt 2 = true ∧ 3 ≠ 0 ∧ 1 ≠ 0 ∧ 3 < 2 ^ 2 ∧ 1 < 2 ^ 2 :=
  ⟨demoBuilt_serves, demoBuilt_valid, by decide, by decide, by decide, by decide⟩
theorem witness_LogDifferenceBounds :
    demoBuilt.Serves 2 ∧ demoBuilt.validAt 2 = true ∧ 3 ≠ 0 ∧ 1 ≠ 0 ∧ 3 < 2 ^ 2 ∧ 1 < 2 ^ 2 :=
  ⟨demoBuilt_serves, demoBuilt_valid, by decide, by decide, by decide, by decide⟩
/-- Two different states of one configuration; the word 0x202 names width 2, the word 0x402 the bad width 4. -/
theorem witness_ResponsesDoNotDependOnTheRegistry :
    demo.Inv ∧ demoBuilt.Inv ∧ demo ≠ demoBuilt ∧ demo.maxWidth = demoBuilt.maxWidth ∧
      demo.romAt (wField 0x202).toNat = demoBuilt.romAt (wField 0x202).toNat ∧
      PrimitiveAt (wField 0x202).toNat (demo.romAt (wField 0x202).toNat) ∧
      demo.maxWidth < (wField 0x402).toNat :=
  ⟨demo_inv, demoBuilt_inv, by decide, by decide, by decide, primitive_two, by decide⟩
theorem witness_RunIsTheMapOfAPureFunction :
    demoBuilt.config = { maxWidth := 3, primPoly := Config.candidatePoly } ∧ demoBuilt.Inv ∧ demoBuilt.RomPrimitive :=
  ⟨by decide, demoBuilt_inv, demo_romPrimitive⟩
theorem witness_PastResponsesAreNotRead :
    step (demo.present (.command 0x201)) = .next (demoBuilt.respond .ok 4) := by rfl
theorem witness_SlotsDoNotInteract :
    3 ≠ (Instr.getf 2).width ∧ exec (.getf 2) demo = .next (demoBuilt.respond .ok 4) := ⟨by decide, rfl⟩
theorem witness_RebuildAfterResetGivesTheSameTables : demoBuilt.Serves 2 ∧ demoBuilt.validAt 2 = true :=
  ⟨demoBuilt_serves, demoBuilt_valid⟩

end Sys2Proof.Tests
end

/-! # The registry of slots: what steps, runs and `Build` leave in it (spec/10_state.md) -/

section
namespace Sys2Proof.Machine

/-! ### What a command and a step can do -/

/-- A command that answers gives one response, on the state it found (bad width) or on the state `Lookup` leaves. -/
theorem exec_next_cases {i : Instr} {s t : State} (h : exec i s = .next t) :
    ∃ u st v, t = u.respond st v ∧ (u = s ∨ lookup i.width s = .ok u) := by
  rw [exec_eq] at h
  obtain ⟨-, rfl⟩ | ⟨u, hu, ⟨v, -, rfl⟩ | ⟨e, -, rfl⟩⟩ := withTable_next_cases h
  · exact ⟨s, .outOfRange, 0, rfl, .inl rfl⟩
  · exact ⟨u, .ok, v, rfl, .inr hu⟩
  · exact ⟨u, e.status, 0, rfl, .inr hu⟩

/-- All that a step on a command word can leave in the registry. -/
theorem step_command_slot_cases {s t : State} {c : CommandWord} (h : step (s.present (.command c)) = .next t) :
    (∀ v, t.slot v = s.slot v) ∨
    (∃ i u, decode c = .ok i ∧ lookup i.width s = .ok u ∧ ∀ v, t.slot v = u.slot v) := by
  cases hd : decode c with
  | error x =>
    rw [step_illegal hd] at h
    cases h
    exact .inl fun _ => rfl
  | ok i =>
    rw [step_command hd] at h
    obtain ⟨u, st, v, rfl, rfl | hu⟩ := exec_next_cases h
    · exact .inl fun _ => rfl
    · exact .inr ⟨i, u, rfl, hu, fun _ => rfl⟩

/-- A property of the engine (not of its ports) that `Lookup` and reset keep is kept by every step. -/
theorem step_keeps {P : State → Prop}
    (ports : ∀ s t : State, t.maxWidth = s.maxWidth → t.rom = s.rom → t.slots = s.slots → P s → P t)
    (look : ∀ w s u, lookup w s = .ok u → P s → P u) (reset : ∀ s : State, P s → P s.resetEngine)
    {s t : State} (h : step s = .next t) (hs : P s) : P t := by
  obtain ⟨-, rfl⟩ | ⟨e, rest, -, he⟩ := step_next_cases h
  · exact hs
  have hr : P { s with pending := rest } := ports s _ rfl rfl rfl hs
  obtain ⟨c, i, -, -, hx⟩ | ⟨c, x, -, -, rfl⟩ | ⟨-, rfl⟩ := he
  · obtain ⟨u, st, v, rfl, rfl | hu⟩ := exec_next_cases hx
    · exact ports { s with pending := rest } _ rfl rfl rfl hr
    · exact ports u _ rfl rfl rfl (look _ _ _ hu hr)
  · exact ports { s with pending := rest } _ rfl rfl rfl hr
  · exact reset _ hr

/-- What every step keeps, every run keeps. -/
theorem run_keeps {P : State → Prop} (hstep : ∀ s t, step s = .next t → P s → P t) (n : Nat) :
    ∀ s t : State, Sys2Proof.core.run n s = .next t → P s → P t := by
  induction n with
  | zero => intro s t h hs; cases h; exact hs
  | succ n ih =>
    intro s t h hs
    simp only [Host.Core.run] at h
    split at h
    · next u hu => exact ih u t h (hstep s u hu hs)
    · cases h
    · cases h

/-! ### `Lookup` and the configuration -/

theorem lookup_keeps_maxWidth {w : Nat} {s t : State} (h : lookup w s = .ok t) : t.maxWidth = s.maxWidth := by
  obtain ⟨-, ⟨-, rfl⟩ | ⟨-, L, A, -, rfl⟩⟩ := lookup_ok_cases h <;> simp

theorem lookup_keeps_rom {w : Nat} {s t : State} (h : lookup w s = .ok t) : t.rom = s.rom := by
  obtain ⟨-, ⟨-, rfl⟩ | ⟨-, L, A, -, rfl⟩⟩ := lookup_ok_cases h <;> simp

/-- No step writes `ROM` or changes `MAX_WIDTH` (spec/10_state.md R21, R34). -/
theorem step_keeps_config {s t : State} (h : step s = .next t) : t.config = s.config := by
  refine step_keeps (P := fun u => u.config = s.config) ?_ ?_ ?_ h rfl
  · intro a b hm hr _ ha
    rw [← ha, State.config, State.config, hm, hr]
  · intro w a u hu ha
    rw [← ha, State.config, State.config, lookup_keeps_maxWidth hu, lookup_keeps_rom hu]
  · intro a ha
    exact ha

/-! ### `Lookup` and the slots -/

/-- `Lookup` touches no slot but the one it is asked for. -/
theorem lookup_slot_ne {w v : Nat} {s t : State} (h : lookup w s = .ok t) (hv : v ≠ w) : t.slot v = s.slot v := by
  obtain ⟨-, ⟨-, rfl⟩ | ⟨-, L, A, -, rfl⟩⟩ := lookup_ok_cases h
  · rfl
  · exact s.setSlot_slot_ne _ hv

/-- `Lookup` leaves every built slot as it is. -/
theorem lookup_slot_of_built {w v : Nat} {s t : State} (h : lookup w s = .ok t) (hv : s.validAt v = true) :
    t.slot v = s.slot v := by
  by_cases hvw : v = w
  · subst hvw
    obtain ⟨low, high⟩ := (lookup_ok_cases h).1
    rw [lookup_of_built low high hv] at h
    cases h
    rfl
  · exact lookup_slot_ne h hvw

/-- A step on a command word leaves every built slot as it is (spec/10_state.md R30). -/
theorem step_command_slot_of_built {s t : State} {c : CommandWord} {w : Nat}
    (h : step (s.present (.command c)) = .next t) (hv : s.validAt w = true) : t.slot w = s.slot w := by
  obtain hsame | ⟨i, u, -, hu, hsame⟩ := step_command_slot_cases h
  · exact hsame w
  · rw [hsame w, lookup_slot_of_built hu hv]

/-! ### The invariant -/

/-- The invariant does not look at the ports. -/
theorem State.Inv.congr {s t : State} (hm : t.maxWidth = s.maxWidth) (hr : t.rom = s.rom) (hs : t.slots = s.slots)
    (h : s.Inv) : t.Inv := by
  have slot (w : Nat) : t.slot w = s.slot w := State.slot_congr hs w
  have rom (w : Nat) : t.romAt w = s.romAt w := by simp only [State.romAt, hr]
  constructor
  · simpa only [hm] using h.widths
  · simpa only [hm, hs] using h.bank
  · simpa only [hm, State.validAt, slot, rom] using h.built
  · simpa only [hm, State.validAt, slot] using h.unbuilt

/-- The invariant holds right after reset of a legal configuration. -/
theorem State.initial_inv {c : Config} (low : 2 ≤ c.maxWidth) (high : c.maxWidth ≤ 31) : (State.initial c).Inv where
  widths := ⟨low, high⟩
  bank := by simp
  built := fun w _ _ h => by simp at h
  unbuilt := fun w _ _ _ => State.initial_slot c w

/-- Reset keeps the invariant. -/
theorem State.Inv.resetEngine {s : State} (h : s.Inv) : s.resetEngine.Inv where
  widths := h.widths
  bank := by simpa using h.bank
  built := fun w _ _ hv => by simp at hv
  unbuilt := fun w _ _ _ => s.resetEngine_slot w

/-- A slot replaced by what `Build(w)` writes into empty tables keeps the invariant. -/
theorem State.Inv.setSlot_build {s : State} (h : s.Inv) {w : Nat} {L A : Table} (low : 2 ≤ w) (high : w ≤ s.maxWidth)
    (hb : build w (s.romAt w) #[] #[] = .ok (L, A)) :
    (s.setSlot w { valid := true, log := L, alog := A }).Inv := by
  have same : (s.setSlot w { valid := true, log := L, alog := A }).slot w = { valid := true, log := L, alog := A } :=
    s.setSlot_slot_same _ low (by rw [h.bank]; omega)
  constructor
  case widths => simpa using h.widths
  case bank => simpa using h.bank
  case built =>
    intro v hv hv2 hval
    by_cases hvw : v = w
    · subst hvw
      rw [same, State.setSlot_romAt]
      exact hb
    · rw [State.validAt, s.setSlot_slot_ne _ hvw] at hval
      rw [s.setSlot_slot_ne _ hvw, State.setSlot_romAt]
      exact h.built v (by simpa using hv) hv2 hval
  case unbuilt =>
    intro v hv hv2 hval
    by_cases hvw : v = w
    · subst hvw
      rw [State.validAt, same] at hval
      cases hval
    · rw [State.validAt, s.setSlot_slot_ne _ hvw] at hval
      rw [s.setSlot_slot_ne _ hvw]
      exact h.unbuilt v (by simpa using hv) hv2 hval

/-- `Lookup` keeps the invariant: what it builds, it builds into empty tables. -/
theorem lookup_keeps_inv {w : Nat} {s t : State} (h : lookup w s = .ok t) (hs : s.Inv) : t.Inv := by
  obtain ⟨⟨low, high⟩, ⟨-, rfl⟩ | ⟨hv, L, A, hb, rfl⟩⟩ := lookup_ok_cases h
  · exact hs
  · rw [hs.unbuilt w high low hv] at hb
    exact hs.setSlot_build low high hb

/-- Every step keeps the invariant (spec/10_state.md R38). -/
theorem step_keeps_inv {s t : State} (h : step s = .next t) (hs : s.Inv) : t.Inv :=
  step_keeps (fun _ _ => State.Inv.congr) (fun _ _ _ => lookup_keeps_inv) (fun _ => State.Inv.resetEngine) h hs

/-! ### What `Build` writes -/

/-- An iteration of the build loop that succeeds has made its two writes. -/
theorem buildLoop_succ_ok {w p n log b : Nat} {L A : Table} {r : Table × Table}
    (h : buildLoop w p (n + 1) log b L A = .ok r) :
    buildLoop w p n (log + 1) (advance w p b) (Table.write L b log) (Table.write A log b) = .ok r := by
  simp only [buildLoop, Res.bind_eq_ok, tblWrite_ok_iff] at h
  obtain ⟨_, ⟨-, rfl⟩, _, ⟨-, rfl⟩, h⟩ := h
  exact h

section BuildLoop

variable {w p : Nat}

/-- The antilog table after the loop: the generator values at the counters run through, and everywhere else what was
there before. -/
theorem buildLoop_read_alog (n : Nat) : ∀ {log : Nat} {L A L' A' : Table},
    buildLoop w p n log (genPow w p log) L A = .ok (L', A') → ∀ i,
      Table.read A' i = if log ≤ i ∧ i < log + n then some (genPow w p i) else Table.read A i := by
  induction n with
  | zero =>
    intro log L A L' A' h i
    cases h
    rw [if_neg (by omega)]
  | succ n ih =>
    intro log L A L' A' h i
    rw [ih (buildLoop_succ_ok h) i, Table.read_write]
    by_cases hi : i = log
    · subst hi
      rw [if_neg (by omega), if_pos rfl, if_pos (by omega)]
    · rw [if_neg hi]
      exact if_congr (by omega) rfl rfl

/-- A log entry after the loop is the counter of an iteration with that generator value, or was there before. -/
theorem buildLoop_log_origin (n : Nat) : ∀ {log : Nat} {L A L' A' : Table},
    buildLoop w p n log (genPow w p log) L A = .ok (L', A') → ∀ {x v}, Table.read L' x = some v →
      (log ≤ v ∧ v < log + n ∧ genPow w p v = x) ∨ Table.read L x = some v := by
  induction n with
  | zero =>
    intro log L A L' A' h x v hx
    cases h
    exact .inr hx
  | succ n ih =>
    intro log L A L' A' h x v hx
    obtain ⟨hlo, hhi, hv⟩ | hv := ih (buildLoop_succ_ok h) hx
    · exact .inl ⟨by omega, by omega, hv⟩
    · rw [Table.read_write] at hv
      split at hv
      · next hxl =>
        cases hv
        exact .inl ⟨Nat.le_refl _, by omega, hxl.symm⟩
      · exact .inr hv

/-- The loop leaves a log entry that is no generator value of its iterations. -/
theorem buildLoop_log_frame (n : Nat) : ∀ {log : Nat} {L A L' A' : Table},
    buildLoop w p n log (genPow w p log) L A = .ok (L', A') → ∀ {x},
      (∀ k, log ≤ k → k < log + n → genPow w p k ≠ x) → Table.read L' x = Table.read L x := by
  induction n with
  | zero =>
    intro log L A L' A' h x _
    cases h
    rfl
  | succ n ih =>
    intro log L A L' A' h x hx
    rw [ih (buildLoop_succ_ok h) fun k hlo hhi => hx k (by omega) (by omega)]
    exact Table.read_write_ne _ _ (hx log (Nat.le_refl _) (by omega)).symm

/-- The log entry of a generator value is the counter of the last iteration with that value. -/
theorem buildLoop_log_of_last (n : Nat) : ∀ {log : Nat} {L A L' A' : Table},
    buildLoop w p n log (genPow w p log) L A = .ok (L', A') → ∀ {k}, log ≤ k → k < log + n →
      (∀ j, k < j → j < log + n → genPow w p j ≠ genPow w p k) → Table.read L' (genPow w p k) = some k := by
  induction n with
  | zero => intro log L A L' A' _ k hlo hhi _; omega
  | succ n ih =>
    intro log L A L' A' h k hlo hhi hlast
    by_cases hk : k = log
    · subst hk
      rw [buildLoop_log_frame n (buildLoop_succ_ok h) fun j hj hjn => hlast j (by omega) (by omega)]
      exact Table.read_write_same _ _ _
    · exact ih (buildLoop_succ_ok h) (by omega) (by omega) fun j hj hjn => hlast j hj (by omega)

end BuildLoop

/-! ### The tables of a primitive polynomial -/

section Primitive

variable {w p : Nat}

/-- The generator values are elements (spec/10_state.md R22). -/
theorem genPow_lt (low : 2 ≤ w) (hp : PrimitiveAt w p) (k : Nat) : genPow w p k < 2 ^ w := by
  induction k with
  | zero => exact Nat.one_lt_two_pow (by omega)
  | succ k ih => exact advance_lt hp.degree ih

/-- Every nonzero element is a power of the generator with an exponent in 1..2^w-1. -/
theorem exists_genPow_eq (hp : PrimitiveAt w p) {a : Nat} (ha : a < 2 ^ w) (h1 : 1 ≤ a) :
    ∃ k, 1 ≤ k ∧ k ≤ 2 ^ w - 1 ∧ genPow w p k = a := by
  obtain ⟨k, hk, rfl⟩ := hp.every a ha h1
  rcases Nat.eq_zero_or_pos k with rfl | hpos
  · exact ⟨2 ^ w - 1, by omega, Nat.le_refl _, hp.returns⟩
  · exact ⟨k, hpos, by omega, rfl⟩

/-- No power of the generator with an exponent in 1..2^w-1 occurs again up to the exponent 2^w - 1. -/
theorem genPow_ne_of_lt (hp : PrimitiveAt w p) {k j : Nat} (h1 : 1 ≤ k) (hkj : k < j) (hj : j ≤ 2 ^ w - 1) :
    genPow w p j ≠ genPow w p k := by
  intro he
  rcases Nat.eq_or_lt_of_le hj with rfl | hlt
  · rw [hp.returns, ← genPow_zero w p] at he
    have := hp.once 0 (by omega) k hkj he
    omega
  · have := hp.once j hlt k (by omega) he
    omega

variable {L A : Table}

/-- `ALOG[k]` is the `k`-th power of the generator, for `k` below size (spec/40_rom_and_build.md R113). -/
theorem build_alog (h : build w p #[] #[] = .ok (L, A)) {k : Nat} (hk : k < 2 ^ w) :
    Table.read A k = some (genPow w p k) := by
  rw [build, fieldSize_eq] at h
  rw [buildLoop_read_alog (2 ^ w) h, if_pos (by omega)]

/-- A written antilog entry is one of the generator values. -/
theorem build_alog_origin (h : build w p #[] #[] = .ok (L, A)) {k v : Nat} (hv : Table.read A k = some v) :
    k < 2 ^ w ∧ v = genPow w p k := by
  rw [build, fieldSize_eq] at h
  rw [buildLoop_read_alog (2 ^ w) h, Table.read_empty] at hv
  split at hv
  · next hk => cases hv; exact ⟨by omega, rfl⟩
  · cases hv

/-- `LOG` undoes the powers with exponent 1..2^w-1: the last write of an entry is the one that stays, and the element 1
is written at both ends of the cycle (spec/40_rom_and_build.md R113). -/
theorem build_log (hp : PrimitiveAt w p) (h : build w p #[] #[] = .ok (L, A)) {k : Nat} (h1 : 1 ≤ k)
    (hk : k ≤ 2 ^ w - 1) : Table.read L (genPow w p k) = some k := by
  rw [build, fieldSize_eq] at h
  exact buildLoop_log_of_last (2 ^ w) h (Nat.zero_le k) (by omega) fun j hkj hj =>
    genPow_ne_of_lt hp h1 hkj (by omega)

/-- A written log entry is below size and is a log of its index. -/
theorem build_log_origin (h : build w p #[] #[] = .ok (L, A)) {x v : Nat} (hv : Table.read L x = some v) :
    v < 2 ^ w ∧ genPow w p v = x := by
  rw [build, fieldSize_eq] at h
  obtain ⟨-, hlt, he⟩ | hx := buildLoop_log_origin (2 ^ w) h hv
  · exact ⟨by omega, he⟩
  · simp at hx

end Primitive

/-! ### The tables of a built slot -/

section Served

variable {s : State} {w : Nat} (hs : s.Serves w) (hv : s.validAt w = true)

include hs

/-- The size is at least 2, so that the cycle of size-1 powers is not empty (spec/10_state.md R29). -/
theorem State.Serves.two_le_size : 2 ≤ 2 ^ w := Nat.le_self_pow (by have := hs.low; omega) 2

/-- An unbuilt slot of a served width has every entry unwritten (spec/70_reset_and_hazards.md R221). -/
theorem State.Serves.entries_none_of_unbuilt (hn : s.validAt w = false) (i : Nat) :
    s.logAt w i = none ∧ s.alogAt w i = none := by
  simp [State.logAt, State.alogAt, hs.inv.unbuilt w hs.high hs.low hn, Slot.unbuilt]

include hv

/-- A built slot of a served width holds what `Build(w)` writes. -/
theorem State.Serves.build_eq : build w (s.romAt w) #[] #[] = .ok ((s.slot w).log, (s.slot w).alog) :=
  hs.inv.built w hs.high hs.low hv

theorem State.Serves.alogAt_eq {k : Nat} (hk : k < 2 ^ w) : s.alogAt w k = some (genPow w (s.romAt w) k) :=
  build_alog (hs.build_eq hv) hk

theorem State.Serves.logAt_genPow {k : Nat} (h1 : 1 ≤ k) (hk : k ≤ 2 ^ w - 1) :
    s.logAt w (genPow w (s.romAt w) k) = some k :=
  build_log hs.prim (hs.build_eq hv) h1 hk

/-- Every nonzero element has a log in 1..2^w-1, which `ALOG` undoes. -/
theorem State.Serves.exists_log {a : Nat} (ha : a < 2 ^ w) (h1 : 1 ≤ a) :
    ∃ l, 1 ≤ l ∧ l ≤ 2 ^ w - 1 ∧ genPow w (s.romAt w) l = a ∧ s.logAt w a = some l ∧ s.alogAt w l = some a := by
  obtain ⟨l, hl1, hl, rfl⟩ := exists_genPow_eq hs.prim ha h1
  exact ⟨l, hl1, hl, rfl, hs.logAt_genPow hv hl1 hl, hs.alogAt_eq hv (by omega)⟩

end Served

end Sys2Proof.Machine
end

/-! # The obligations of spec/10_state.md -/

section
open Sys2Proof Sys2Proof.Machine

/-- Settles O17: the invariant and the configuration are kept along the run, and the invariant's clause on built slots
is the statement. -/
theorem reachableRegistryHoldsBuilds : Obligations.ReachableRegistryHoldsBuilds := by
  intro c evs n t low high hrun w hw2 hw hv
  have hinit : ({ State.initial c with pending := evs } : State).Inv :=
    State.Inv.congr (s := State.initial c) rfl rfl rfl (State.initial_inv low high)
  have hinv : t.Inv := run_keeps (fun _ _ => step_keeps_inv) n _ t hrun hinit
  have hcfg : t.config = c :=
    run_keeps (P := fun u => u.config = c) (fun _ _ h hu => (step_keeps_config h).trans hu) n _ t hrun rfl
  subst hcfg
  exact hinv.built w hw hw2 hv

/-- Settles O24: the tables hold the powers of the generator, and R22 says what those do. -/
theorem builtSlotInvariants : Obligations.BuiltSlotInvariants := by
  intro s w hs hv
  have size := hs.two_le_size
  have alog {k : Nat} (hk : k < 2 ^ w) := hs.alogAt_eq hv hk
  refine ⟨?undoes, ?first, ?cycle, ?doubled, ?last, ?logOne⟩
  case undoes =>
    intro a ha h1
    obtain ⟨l, -, -, -, hlog, halog⟩ := hs.exists_log hv ha h1
    exact ⟨l, hlog, halog⟩
  case first => exact alog (by omega)
  case cycle =>
    intro x hx h1
    obtain ⟨k, hk, rfl⟩ := hs.prim.every x hx h1
    refine ⟨k, hk, alog (by omega), fun j hj he => ?_⟩
    rw [alog (by omega), Option.some.injEq] at he
    exact hs.prim.once j hj k hk he
  case doubled =>
    intro k hk
    exact ⟨genPow w (s.romAt w) k, alog (by omega), alog (by omega)⟩
  case last => rw [alog (by omega), hs.prim.returns]
  case logOne =>
    simpa only [hs.prim.returns] using hs.logAt_genPow hv (k := 2 ^ w - 1) (by omega) (Nat.le_refl _)

/-- Settles O25: a written log entry is an iteration's counter, a written antilog entry a generator value. -/
theorem tableEntriesFitTheirWidth : Obligations.TableEntriesFitTheirWidth := by
  intro s w i v hs hread
  have hlt : v < 2 ^ w := by
    cases hv : s.validAt w with
    | false => simp [hs.entries_none_of_unbuilt hv i] at hread
    | true =>
      obtain hl | ha := hread
      · exact (build_log_origin (hs.build_eq hv) hl).1
      · rw [(build_alog_origin (hs.build_eq hv) ha).2]
        exact genPow_lt hs.low hs.prim i
  exact ⟨by omega, hlt⟩

/-- Settles O39: a command touches the registry by its `Lookup` alone, which leaves built slots and other slots. -/
theorem slotLifecycle : Obligations.SlotLifecycle := by
  refine ⟨fun s t c w => step_command_slot_of_built, ?becomesBuilt, ?becomesUnbuilt⟩
  case becomesBuilt =>
    intro s t c w h hs ht
    rw [State.validAt] at hs ht
    obtain hsame | ⟨i, u, hd, hu, hsame⟩ := step_command_slot_cases h
    · rw [hsame w, hs] at ht
      cases ht
    · by_cases hw : i.width = w
      · subst hw
        obtain ⟨low, high⟩ := (lookup_ok_cases hu).1
        exact ⟨i, hd, rfl, low, high, u, hu, hsame _⟩
      · rw [hsame w, lookup_slot_ne hu (Ne.symm hw), hs] at ht
        cases ht
  case becomesUnbuilt =>
    intro s t h w hs ht
    obtain ⟨-, rfl⟩ | ⟨e, rest, hp, hc⟩ := step_next_cases h
    · rw [hs] at ht
      cases ht
    · cases e with
      | reset => exact ⟨rest, .inl hp⟩
      | cutCommand c => exact ⟨rest, .inr ⟨c, hp⟩⟩
      | command c =>
        rw [State.eq_present hp] at h hs
        rw [State.validAt, step_command_slot_of_built h hs] at ht
        exact absurd (hs.symm.trans ht) (by decide)

/-- Settles O19: of the four polynomials of degree 2 only 7 leads back to 1 after three steps. -/
theorem romEntryTwoIsForced : Obligations.RomEntryTwoIsForced := by
  have only (p : Nat) (hp : PrimitiveAt 2 p) : p = 7 := by
    obtain ⟨hlo, hhi⟩ := hp.degree
    have hret := hp.returns
    interval_cases p
    · exact absurd hret (by decide)
    · exact absurd hret (by decide)
    · exact absurd hret (by decide)
    · rfl
  refine ⟨fun p => ⟨only p, ?_⟩, fun s hinv hrom => only _ (hrom 2 hinv.widths.1 (Nat.le_refl 2))⟩
  rintro rfl
  exact ⟨by decide, by decide, by decide, by decide⟩
end

/-! # A command's shared effect and its repetition (spec/20_memory.md) -/

section
namespace Sys2Proof.Machine

/-! ### How a command ends -/

/-- A command that ends with a response owes it to the result of its procedure alone, so from every state it would end
with the same one; an error's `VALUE` is 0 (spec/60_exceptions.md R196). -/
theorem finish_next_cases {r : Res Nat} {u t : State} (h : finish r u = .next t) :
    ∃ st v, (st ≠ .ok → v = 0) ∧ t = u.respond st v ∧ ∀ s, finish r s = .next (s.respond st v) := by
  cases r with
  | ok v => cases h; exact ⟨.ok, v, absurd rfl, rfl, fun _ => rfl⟩
  | raise e => cases h; exact ⟨e.status, 0, fun _ => rfl, rfl, fun _ => rfl⟩
  | fault f => cases h

/-- A command on a good width that answers got through its `Lookup` and ended on the state that left. -/
theorem exec_next_of_good {i : Instr} {s t : State} (low : 2 ≤ i.width) (high : i.width ≤ s.maxWidth)
    (h : exec i s = .next t) : ∃ u, lookup i.width s = .ok u ∧ finish (Instr.body i u) u = .next t := by
  rw [exec_eq] at h
  obtain ⟨hbad, -⟩ | ⟨u, hu, -⟩ := withTable_next_cases h
  · omega
  · rw [← exec_eq, exec_of_lookup hu] at h
    exact ⟨u, hu, h⟩

/-! ### `Lookup` on the way to a repeated command -/

theorem lookup_keeps_responses {w : Nat} {s t : State} (h : lookup w s = .ok t) : t.responses = s.responses := by
  obtain ⟨-, ⟨-, rfl⟩ | ⟨-, L, A, -, rfl⟩⟩ := lookup_ok_cases h <;> simp

/-- On a built slot `Lookup` changes nothing. -/
theorem lookup_eq_self_of_built {w : Nat} {s t : State} (h : lookup w s = .ok t) (hv : s.validAt w = true) : t = s := by
  obtain ⟨low, high⟩ := (lookup_ok_cases h).1
  rw [lookup_of_built low high hv] at h
  cases h
  rfl

/-- In a state of the invariant `Lookup` leaves the slot it is asked for built. -/
theorem lookup_validAt {w : Nat} {s t : State} (h : lookup w s = .ok t) (hs : s.Inv) : t.validAt w = true := by
  obtain ⟨⟨low, high⟩, ⟨hv, rfl⟩ | ⟨-, L, A, -, rfl⟩⟩ := lookup_ok_cases h
  · exact hv
  · have hin : w - 2 < s.slots.length := by rw [hs.bank]; omega
    rw [State.validAt, s.setSlot_slot_same _ low hin]

/-! ### Repetition -/

/-- A command on a built slot leaves the whole registry as it is. -/
theorem exec_slots_of_built {i : Instr} {s t : State} (h : exec i s = .next t) (hv : s.validAt i.width = true) :
    t.slots = s.slots := by
  obtain ⟨u, st, v, rfl, rfl | hu⟩ := exec_next_cases h
  · rfl
  · rw [lookup_eq_self_of_built hu hv, State.respond_slots]

/-- A command on a served width ends in one response; issued again, it finds its slot built, reads the same tables and
adds the same response. -/
theorem exec_again {i : Instr} {s t : State} (hs : s.Serves i.width) (h : exec i s = .next t) :
    ∃ st v, t.responses = s.responses ++ [{ status := st, value := BitVec.ofNat 32 v }] ∧
      exec i t = .next (t.respond st v) := by
  obtain ⟨u, hu, hfin⟩ := exec_next_of_good hs.low hs.high h
  obtain ⟨st, v, -, rfl, hend⟩ := finish_next_cases hfin
  have hwidth : i.width ≤ (u.respond st v).maxWidth := by
    rw [State.respond_maxWidth, lookup_keeps_maxWidth hu]
    exact hs.high
  have hagain : lookup i.width (u.respond st v) = .ok (u.respond st v) :=
    lookup_of_built hs.low hwidth ((u.respond_validAt st v i.width).trans (lookup_validAt hu hs.inv))
  have hbody : Instr.body i (u.respond st v) = Instr.body i u := Instr.body_congr i (u.respond_slot st v i.width)
  refine ⟨st, v, ?_, ?_⟩
  · rw [State.respond_responses, lookup_keeps_responses hu]
  · rw [exec_of_lookup hagain, hbody, hend]

end Sys2Proof.Machine
end

/-! # The obligations of spec/20_memory.md -/

section
open Sys2Proof Sys2Proof.Machine

/-- Settles O38: a bad width ends in the refusal by `Lookup`; a good one gets through `Lookup`, and `finish` only adds
the response. -/
theorem errorsLeaveSharedState : Obligations.ErrorsLeaveSharedState := by
  intro i s t h
  by_cases hbad : i.width < 2 ∨ s.maxWidth < i.width
  · rw [exec_of_bad hbad] at h
    cases h
    exact .inl ⟨hbad, rfl⟩
  · have low : 2 ≤ i.width := by omega
    have high : i.width ≤ s.maxWidth := by omega
    obtain ⟨u, hu, hfin⟩ := exec_next_of_good low high h
    obtain ⟨st, v, herr, ht, -⟩ := finish_next_cases hfin
    exact .inr ⟨low, high, u, st, v, hu, ht, herr⟩

/-- Settles O40: the first command leaves its slot built, so its repetition runs on the same tables; and a step on a
command word leaves built slots as they are. -/
theorem readsAreIdempotent : Obligations.ReadsAreIdempotent := by
  refine ⟨fun i s t h => ⟨exec_slots_of_built h, fun hs => ?again⟩, ?entries⟩
  case again =>
    obtain ⟨st, v, hresp, hexec⟩ := exec_again hs h
    exact ⟨_, t.respond st v, hresp, hexec, t.respond_responses st v, t.respond_slots st v⟩
  case entries =>
    intro s t c v j h hv
    simp only [State.logAt, State.alogAt, step_command_slot_of_built h hv, and_self]
end

/-! # The words exchanged with the host: fields, decoder, encoder, opcode map (spec/30_encoding.md) -/

section
namespace Sys2Proof

open Laws.HeaderFields (opcode header_packCommand)

/-! ### The five fields of a command word -/

theorem opcField_toNat (c : CommandWord) : (opcField c).toNat = c.toNat % 2 ^ 8 :=
  BitVec.extractLsb'_toNat 0 8 c

theorem wField_toNat (c : CommandWord) : (wField c).toNat = c.toNat / 2 ^ 8 % 2 ^ 8 := by
  rw [wField, BitVec.extractLsb'_toNat, Nat.shiftRight_eq_div_pow]

theorem rsvField_toNat (c : CommandWord) : (rsvField c).toNat = c.toNat / 2 ^ 16 % 2 ^ 16 := by
  rw [rsvField, BitVec.extractLsb'_toNat, Nat.shiftRight_eq_div_pow]

theorem aField_toNat (c : CommandWord) : (aField c).toNat = c.toNat / 2 ^ 32 % 2 ^ 32 := by
  rw [aField, BitVec.extractLsb'_toNat, Nat.shiftRight_eq_div_pow]

/-- `B` is the topmost field, so nothing above it has to be cut off. -/
theorem bField_toNat (c : CommandWord) : (bField c).toNat = c.toNat / 2 ^ 64 := by
  rw [bField, BitVec.extractLsb'_toNat, Nat.shiftRight_eq_div_pow]
  have := c.isLt
  omega

/-- A word is its five fields side by side, `{B, A, RSV, W, OPC}` (R80). -/
theorem append_fields (c : CommandWord) : bField c ++ aField c ++ rsvField c ++ wField c ++ opcField c = c := by
  unfold bField aField rsvField wField opcField
  rw [BitVec.extractLsb'_append_extractLsb'_eq_extractLsb' (show 64 = 32 + 32 from rfl),
    BitVec.extractLsb'_append_extractLsb'_eq_extractLsb' (show 32 = 16 + 16 from rfl),
    BitVec.extractLsb'_append_extractLsb'_eq_extractLsb' (show 16 = 8 + 8 from rfl),
    BitVec.extractLsb'_append_extractLsb'_eq_extractLsb' (show 8 = 0 + 8 from rfl)]
  exact BitVec.extractLsb'_eq_self

/-- An operand field is unused exactly when it reads as the number 0 (R81, R86). -/
theorem operand_toNat_eq_zero_iff (x : BitVec 32) : x.toNat = 0 ↔ x = 0 := BitVec.toNat_inj (y := 0)

/-- Words are compared field by field. -/
theorem commandWord_eq_iff_fields (c d : CommandWord) :
    c = d ↔ opcField c = opcField d ∧ wField c = wField d ∧ rsvField c = rsvField d ∧ aField c = aField d ∧
      bField c = bField d := by
  constructor
  · rintro rfl
    exact ⟨rfl, rfl, rfl, rfl, rfl⟩
  · rintro ⟨hopc, hw, hrsv, ha, hb⟩
    rw [← append_fields c, hopc, hw, hrsv, ha, hb, append_fields]

/-! ### The fields of a packed word -/

theorem aField_packCommand (opc w a b : Nat) : aField (packCommand opc w a b) = BitVec.ofNat 32 a := by
  unfold aField packCommand
  rw [BitVec.extractLsb'_append_eq_of_le (by decide), BitVec.extractLsb'_append_eq_of_le (by decide),
    BitVec.extractLsb'_append_eq_of_le (by decide), BitVec.extractLsb'_append_eq_right]

theorem bField_packCommand (opc w a b : Nat) : bField (packCommand opc w a b) = BitVec.ofNat 32 b := by
  unfold bField packCommand
  rw [BitVec.extractLsb'_append_eq_of_le (by decide), BitVec.extractLsb'_append_eq_of_le (by decide),
    BitVec.extractLsb'_append_eq_of_le (by decide), BitVec.extractLsb'_append_eq_left]

/-! ### The decoder -/

/-- What a command puts into the field `A`: 0 where it has no such operand (R87). -/
def Instr.operandA : Instr → Nat
  | .getf _ => 0
  | .mul _ a _ => a
  | .div _ a _ => a
  | .exp _ a _ => a
  | .logrd _ i => i
  | .alogrd _ i => i

/-- What a command puts into the field `B`: 0 where it has no such operand (R87). -/
def Instr.operandB : Instr → Nat
  | .getf _ => 0
  | .mul _ _ b => b
  | .div _ _ b => b
  | .exp _ _ e => e
  | .logrd _ _ => 0
  | .alogrd _ _ => 0

theorem encode_eq_packCommand (i : Instr) :
    encode i = packCommand (opcode i).toNat i.width i.operandA i.operandB := by
  cases i <;> rfl

theorem Instr.wf_iff (i : Instr) :
    i.wf = true ↔ i.width < 2 ^ wlen ∧ i.operandA < 2 ^ xlen ∧ i.operandB < 2 ^ xlen := by
  cases i <;> simp [Instr.wf, fitsW, fitsX, Instr.width, Instr.operandA, Instr.operandB, and_assoc]

/-- A word decodes to a command exactly when its five fields are the command's (R85, R86). -/
theorem decode_eq_ok_iff (c : CommandWord) (i : Instr) :
    decode c = .ok i ↔ opcField c = opcode i ∧ (wField c).toNat = i.width ∧ rsvField c = 0 ∧
      (aField c).toNat = i.operandA ∧ (bField c).toNat = i.operandB := by
  constructor
  · intro h
    have hopc (n : Nat) (hn : (opcField c).toNat = n) : opcField c = BitVec.ofNat 8 n := by
      rw [← hn, BitVec.ofNat_toNat, BitVec.setWidth_eq]
    simp only [decode] at h
    split at h
    case isFalse => cases h
    case isTrue hrsv =>
      split at h
      case h_2 hn | h_3 hn | h_4 hn => cases h; exact ⟨hopc _ hn, rfl, hrsv, rfl, rfl⟩
      case h_7 => cases h
      case h_1 hn =>
        split at h
        · next hab => cases h; exact ⟨hopc _ hn, rfl, hrsv, hab⟩
        · cases h
      case h_5 hn | h_6 hn =>
        split at h
        · next hb => cases h; exact ⟨hopc _ hn, rfl, hrsv, rfl, hb⟩
        · cases h
  · rintro ⟨hopc, hw, hrsv, ha, hb⟩
    cases i <;> simp_all [decode, opcode, Instr.width, Instr.operandA, Instr.operandB]

/-- The words that spell a command, row by row (R85). -/
theorem exists_decode_ok_iff (c : CommandWord) :
    (∃ i, decode c = .ok i) ↔
      (opcField c = 1 ∧ rsvField c = 0 ∧ aField c = 0 ∧ bField c = 0) ∨ (opcField c = 2 ∧ rsvField c = 0) ∨
      (opcField c = 3 ∧ rsvField c = 0) ∨ (opcField c = 4 ∧ rsvField c = 0) ∨
      (opcField c = 5 ∧ rsvField c = 0 ∧ bField c = 0) ∨ (opcField c = 6 ∧ rsvField c = 0 ∧ bField c = 0) := by
  constructor
  · rintro ⟨i, h⟩
    obtain ⟨hopc, -, hrsv, ha, hb⟩ := (decode_eq_ok_iff c i).1 h
    cases i with
    | getf w => exact .inl ⟨hopc, hrsv, (operand_toNat_eq_zero_iff _).1 ha, (operand_toNat_eq_zero_iff _).1 hb⟩
    | mul w a b => exact .inr (.inl ⟨hopc, hrsv⟩)
    | div w a b => exact .inr (.inr (.inl ⟨hopc, hrsv⟩))
    | exp w a e => exact .inr (.inr (.inr (.inl ⟨hopc, hrsv⟩)))
    | logrd w i => exact .inr (.inr (.inr (.inr (.inl ⟨hopc, hrsv, (operand_toNat_eq_zero_iff _).1 hb⟩))))
    | alogrd w i => exact .inr (.inr (.inr (.inr (.inr ⟨hopc, hrsv, (operand_toNat_eq_zero_iff _).1 hb⟩))))
  · have spells (i : Instr) (hopc : opcField c = opcode i) (hw : (wField c).toNat = i.width) (hrsv : rsvField c = 0)
        (ha : (aField c).toNat = i.operandA) (hb : (bField c).toNat = i.operandB) : ∃ i, decode c = .ok i :=
      ⟨i, (decode_eq_ok_iff c i).2 ⟨hopc, hw, hrsv, ha, hb⟩⟩
    rintro (⟨hopc, hrsv, ha, hb⟩ | ⟨hopc, hrsv⟩ | ⟨hopc, hrsv⟩ | ⟨hopc, hrsv⟩ | ⟨hopc, hrsv, hb⟩ | ⟨hopc, hrsv, hb⟩)
    · exact spells (.getf _) hopc rfl hrsv ((operand_toNat_eq_zero_iff _).2 ha) ((operand_toNat_eq_zero_iff _).2 hb)
    · exact spells (.mul _ _ _) hopc rfl hrsv rfl rfl
    · exact spells (.div _ _ _) hopc rfl hrsv rfl rfl
    · exact spells (.exp _ _ _) hopc rfl hrsv rfl rfl
    · exact spells (.logrd _ _) hopc rfl hrsv rfl ((operand_toNat_eq_zero_iff _).2 hb)
    · exact spells (.alogrd _ _) hopc rfl hrsv rfl ((operand_toNat_eq_zero_iff _).2 hb)

/-- A word decodes or is refused. -/
theorem exists_decode_error_iff (c : CommandWord) : (∃ x, decode c = .error x) ↔ ¬ ∃ i, decode c = .ok i := by
  cases decode c <;> simp

/-! ### The opcode map -/

theorem opcField_and (c m : CommandWord) : opcField (c &&& m) = opcField c &&& opcField m := BitVec.extractLsb'_and
theorem wField_and (c m : CommandWord) : wField (c &&& m) = wField c &&& wField m := BitVec.extractLsb'_and
theorem rsvField_and (c m : CommandWord) : rsvField (c &&& m) = rsvField c &&& rsvField m := BitVec.extractLsb'_and
theorem aField_and (c m : CommandWord) : aField (c &&& m) = aField c &&& aField m := BitVec.extractLsb'_and
theorem bField_and (c m : CommandWord) : bField (c &&& m) = bField c &&& bField m := BitVec.extractLsb'_and

/-- What `cmd & mask = match` says, for a mask that keeps `OPC` and `RSV` and drops `W`, and a match that is an opcode
alone: what is left of `A` and `B` must be zero. -/
theorem and_eq_packCommand_iff {m : CommandWord} (hopc : opcField m = BitVec.allOnes 8) (hw : wField m = 0#8)
    (hrsv : rsvField m = BitVec.allOnes 16) (c : CommandWord) (opc : BitVec 8) :
    c &&& m = packCommand opc.toNat 0 0 0 ↔
      opcField c = opc ∧ rsvField c = 0 ∧ aField c &&& aField m = 0 ∧ bField c &&& bField m = 0 := by
  obtain ⟨hopc', hw', hrsv'⟩ := header_packCommand opc.toNat 0 0 0
  rw [commandWord_eq_iff_fields, opcField_and, wField_and, rsvField_and, aField_and, bField_and, hopc, hw, hrsv,
    hopc', hw', hrsv', aField_packCommand, bField_packCommand, BitVec.and_allOnes, BitVec.and_allOnes, BitVec.and_zero,
    BitVec.ofNat_toNat, BitVec.setWidth_eq]
  simp only [true_and, BitVec.ofNat_eq_ofNat]

/-- The mask of MUL, DIV and EXP. -/
theorem and_headerMask_eq_iff (c : CommandWord) (opc : BitVec 8) :
    c &&& 0x0000000000000000FFFF00FF = packCommand opc.toNat 0 0 0 ↔ opcField c = opc ∧ rsvField c = 0 := by
  rw [and_eq_packCommand_iff rfl rfl rfl, show aField 0x0000000000000000FFFF00FF = 0#32 from rfl,
    show bField 0x0000000000000000FFFF00FF = 0#32 from rfl, BitVec.and_zero, BitVec.and_zero]
  simp

/-- The mask of LOGRD and ALOGRD. -/
theorem and_noBMask_eq_iff (c : CommandWord) (opc : BitVec 8) :
    c &&& 0xFFFFFFFF00000000FFFF00FF = packCommand opc.toNat 0 0 0 ↔
      opcField c = opc ∧ rsvField c = 0 ∧ bField c = 0 := by
  rw [and_eq_packCommand_iff rfl rfl rfl, show aField 0xFFFFFFFF00000000FFFF00FF = 0#32 from rfl,
    show bField 0xFFFFFFFF00000000FFFF00FF = BitVec.allOnes 32 from rfl, BitVec.and_zero, BitVec.and_allOnes]
  simp

/-- The mask of GETF. -/
theorem and_noABMask_eq_iff (c : CommandWord) (opc : BitVec 8) :
    c &&& 0xFFFFFFFFFFFFFFFFFFFF00FF = packCommand opc.toNat 0 0 0 ↔
      opcField c = opc ∧ rsvField c = 0 ∧ aField c = 0 ∧ bField c = 0 := by
  rw [and_eq_packCommand_iff rfl rfl rfl, show aField 0xFFFFFFFFFFFFFFFFFFFF00FF = BitVec.allOnes 32 from rfl,
    show bField 0xFFFFFFFFFFFFFFFFFFFF00FF = BitVec.allOnes 32 from rfl, BitVec.and_allOnes, BitVec.and_allOnes]

/-- A row accepts only words with its own opcode, for every mask keeps `OPC`. -/
theorem opcField_eq_of_accepts {r : OpcodeRow} (hr : r ∈ opcodeRows) {c : CommandWord} (h : r.accepts c = true) :
    opcField c = opcField r.pattern := by
  have hmask : ∀ r ∈ opcodeRows, opcField r.mask = BitVec.allOnes 8 := by decide
  have hand : c &&& r.mask = r.pattern := beq_iff_eq.1 h
  rw [← hand, opcField_and, hmask r hr, BitVec.and_allOnes]

/-- A row is determined by its opcode. -/
theorem row_eq_of_opcField_eq :
    ∀ r ∈ opcodeRows, ∀ q ∈ opcodeRows, opcField r.pattern = opcField q.pattern → r = q := by
  decide

/-- `cmd & mask = match` for the six rows, field by field (R85). -/
theorem and_mask_eq_match_iff (c : CommandWord) :
    (c &&& 0xFFFFFFFFFFFFFFFFFFFF00FF = 0x1 ↔ opcField c = 1 ∧ rsvField c = 0 ∧ aField c = 0 ∧ bField c = 0) ∧
    (c &&& 0x0000000000000000FFFF00FF = 0x2 ↔ opcField c = 2 ∧ rsvField c = 0) ∧
    (c &&& 0x0000000000000000FFFF00FF = 0x3 ↔ opcField c = 3 ∧ rsvField c = 0) ∧
    (c &&& 0x0000000000000000FFFF00FF = 0x4 ↔ opcField c = 4 ∧ rsvField c = 0) ∧
    (c &&& 0xFFFFFFFF00000000FFFF00FF = 0x5 ↔ opcField c = 5 ∧ rsvField c = 0 ∧ bField c = 0) ∧
    (c &&& 0xFFFFFFFF00000000FFFF00FF = 0x6 ↔ opcField c = 6 ∧ rsvField c = 0 ∧ bField c = 0) :=
  ⟨and_noABMask_eq_iff c 1, and_headerMask_eq_iff c 2, and_headerMask_eq_iff c 3, and_headerMask_eq_iff c 4,
    and_noBMask_eq_iff c 5, and_noBMask_eq_iff c 6⟩

/-- The words that some row accepts are the words that spell a command. -/
theorem exists_row_accepts_iff (c : CommandWord) :
    (∃ r ∈ opcodeRows, r.accepts c = true) ↔ ∃ i, decode c = .ok i := by
  obtain ⟨hgetf, hmul, hdiv, hexp, hlogrd, halogrd⟩ := and_mask_eq_match_iff c
  rw [exists_decode_ok_iff]
  simp only [opcodeRows, OpcodeRow.accepts, beq_iff_eq, List.mem_cons, List.not_mem_nil, exists_eq_or_imp, or_false,
    exists_eq_left, hgetf, hmul, hdiv, hexp, hlogrd, halogrd]

/-! ### The encoder -/

/-- A word that decodes is the encoding of a well-formed command. -/
theorem encode_of_decode {c : CommandWord} {i : Instr} (h : decode c = .ok i) : i.wf = true ∧ encode i = c := by
  obtain ⟨hopc, hw, hrsv, ha, hb⟩ := (decode_eq_ok_iff c i).1 h
  constructor
  · rw [Instr.wf_iff, ← hw, ← ha, ← hb]
    exact ⟨(wField c).isLt, (aField c).isLt, (bField c).isLt⟩
  · rw [encode_eq_packCommand, ← hopc, ← hw, ← ha, ← hb]
    simp only [packCommand, BitVec.ofNat_toNat, BitVec.setWidth_eq]
    rw [← hrsv, append_fields]

/-- A well-formed command is read back from its encoding. -/
theorem decode_encode {i : Instr} (h : i.wf = true) : decode (encode i) = .ok i := by
  obtain ⟨hw, ha, hb⟩ := (Instr.wf_iff i).1 h
  rw [decode_eq_ok_iff, encode_eq_packCommand]
  obtain ⟨hopc, hw', hrsv⟩ := header_packCommand (opcode i).toNat i.width i.operandA i.operandB
  refine ⟨?_, ?_, hrsv, ?_, ?_⟩
  · rw [hopc, BitVec.ofNat_toNat, BitVec.setWidth_eq]
  · rw [hw', BitVec.toNat_ofNat, Nat.mod_eq_of_lt hw]
  · rw [aField_packCommand, BitVec.toNat_ofNat, Nat.mod_eq_of_lt ha]
  · rw [bField_packCommand, BitVec.toNat_ofNat, Nat.mod_eq_of_lt hb]

end Sys2Proof
end

/-! # The response to a command word (spec/30_encoding.md R82) -/

section
namespace Sys2Proof.Machine

/-- The response word is `VALUE` and the 8 bits of `STATUS` side by side. -/
theorem Response.word_toNat (r : Response) :
    r.word.toNat = (r.value.toNat <<< 8) ||| r.status.code.toNat ∧
      r.word.toNat % 2 ^ 8 = r.status.code.toNat ∧ r.word.toNat / 2 ^ 8 = r.value.toNat := by
  have hword : r.word.toNat = r.value.toNat <<< 8 ||| r.status.code.toNat := BitVec.toNat_append _ _
  have hcode : r.status.code.toNat < 2 ^ 8 := r.status.code.isLt
  have hsum : r.word.toNat = r.value.toNat * 2 ^ 8 + r.status.code.toNat := by
    rw [hword, ← Nat.shiftLeft_add_eq_or_of_lt hcode, Nat.shiftLeft_eq]
  exact ⟨hword, by omega, by omega⟩

/-- A command word draws one response, with `VALUE` 0 unless it is OK: a refused word and a command on a bad width give
an error response on the state they find, any other command what `finish` appends after `Lookup`. -/
theorem step_command_responses {s t : State} {c : CommandWord} (h : step (s.present (.command c)) = .next t) :
    ∃ r : Response, t.responses = s.responses ++ [r] ∧ (r.status ≠ .ok → r.value = 0) := by
  cases hd : decode c with
  | error x =>
    rw [step_illegal hd] at h
    cases h
    exact ⟨_, s.raiseError_responses .illegalCommand, fun _ => rfl⟩
  | ok i =>
    rw [step_command hd] at h
    obtain ⟨-, rfl⟩ | ⟨-, -, u, st, v, hu, rfl, herr⟩ := errorsLeaveSharedState i s t h
    · exact ⟨_, s.respond_responses .outOfRange 0, fun _ => rfl⟩
    · refine ⟨_, (u.respond_responses st v).trans (by rw [lookup_keeps_responses hu]), fun hst => ?_⟩
      rw [herr hst]
      rfl

end Sys2Proof.Machine
end

/-! # The obligations of spec/30_encoding.md -/

section
open Sys2Proof Sys2Proof.Machine

/-- Settles O8: both directions are field by field; two words of one command are both its encoding. -/
theorem decodeEncodeRoundTrip : Obligations.DecodeEncodeRoundTrip := by
  refine ⟨fun i h => decode_encode h, fun c i h => encode_of_decode h, fun c d i hc hd => ?_⟩
  exact (encode_of_decode hc).2.symm.trans (encode_of_decode hd).2

/-- Settles O3: the fields are quotients and remainders of the word, and the word is the fields side by side. -/
theorem commandWordLayout : Obligations.CommandWordLayout := by
  intro c
  refine ⟨opcField_toNat c, wField_toNat c, rsvField_toNat c, aField_toNat c, bField_toNat c, ?_⟩
  conv_lhs => rw [← append_fields c]
  simp only [BitVec.toNat_append, Nat.shiftLeft_or_distrib, ← Nat.shiftLeft_add]

/-- Settles O4: the two halves are the layout of the word and the one response of a step. -/
theorem responseWordLayout : Obligations.ResponseWordLayout :=
  ⟨Response.word_toNat, fun _ _ _ h => step_command_responses h⟩

/-- Settles O6: a mask picks the fields that decide, and the decoder looks at the same ones; two rows that accept a word
have its opcode. -/
theorem decodeIsTheOpcodeMap : Obligations.DecodeIsTheOpcodeMap := by
  refine ⟨fun c => ?rows, fun c r hr q hq hrc hqc => ?exclusive⟩
  case rows =>
    simp only [decode_eq_ok_iff, Laws.HeaderFields.opcode, Instr.width, Instr.operandA, Instr.operandB,
      operand_toNat_eq_zero_iff, true_and, and_true]
    exact and_mask_eq_match_iff c
  case exclusive =>
    exact row_eq_of_opcField_eq r hr q hq ((opcField_eq_of_accepts hr hrc).symm.trans (opcField_eq_of_accepts hq hqc))

/-- Settles O7: the refused words are the complement of the legal ones, which are known by their fields and by the
rows; a refused word raises ILLEGAL_CMD on the state it was taken from. -/
theorem illegalWordsChangeNothing : Obligations.IllegalWordsChangeNothing := by
  refine ⟨fun c => ⟨?fields, ?rows⟩, fun s c x h => step_illegal h⟩
  case fields =>
    rw [exists_decode_error_iff, exists_decode_ok_iff]
    bv_omega
  case rows =>
    rw [exists_decode_error_iff, ← exists_row_accepts_iff]
    simp only [not_exists, not_and, Bool.not_eq_true]
end

/-! # What `Build` leaves in empty tables (spec/40_rom_and_build.md) -/

section
namespace Sys2Proof.Machine

section BuildOfPrimitive

variable {w p : Nat}

/-! ### `Build` runs to its end -/

/-- The generator value 0 is final: every later value is 0 as well. -/
theorem genPow_eq_zero_of_le {k m : Nat} (h : genPow w p k = 0) (hkm : k ≤ m) : genPow w p m = 0 := by
  induction m, hkm using Nat.le_induction with
  | base => exact h
  | succ m _ ih => rw [genPow_succ, ih, advance_zero]

/-- No generator value is 0: the cycle comes back to 1, and 0 does not (spec/10_state.md R22). -/
theorem genPow_pos (low : 2 ≤ w) (hp : PrimitiveAt w p) (k : Nat) : 1 ≤ genPow w p k := by
  have period : 0 < 2 ^ w - 1 := by
    have := Nat.one_lt_two_pow (n := w) (by omega)
    omega
  have back : genPow w p (k * (2 ^ w - 1)) = 1 := by rw [← genPow_mod hp, Nat.mul_mod_left, genPow_zero]
  by_contra h
  have gone := genPow_eq_zero_of_le (by omega : genPow w p k = 0) (Nat.le_mul_of_pos_right k period)
  omega

/-- The loop's writes all land while the counter and the generator values stay below size. -/
theorem buildLoop_ok (low : 2 ≤ w) (hp : PrimitiveAt w p) (n : Nat) : ∀ {log : Nat} {L A : Table},
    log + n ≤ 2 ^ w → ∃ L' A', buildLoop w p n log (genPow w p log) L A = .ok (L', A') := by
  induction n with
  | zero => exact fun _ => ⟨_, _, rfl⟩
  | succ n ih =>
    intro log L A hle
    rw [buildLoop_succ (genPow_lt low hp log) (by omega)]
    exact ih (by omega)

/-- Over a primitive polynomial `Build` raises nothing and does not fault. -/
theorem build_ok (low : 2 ≤ w) (hp : PrimitiveAt w p) (L A : Table) : ∃ L' A', build w p L A = .ok (L', A') := by
  rw [build, fieldSize_eq]
  exact buildLoop_ok low hp (2 ^ w) (log := 0) (by omega)

/-! ### The two tables, entry by entry -/

variable {L A : Table}

/-- The antilog table is the graph of the generator values with an index below size. -/
theorem build_read_alog_iff (h : build w p #[] #[] = .ok (L, A)) {k v : Nat} :
    Table.read A k = some v ↔ k < 2 ^ w ∧ genPow w p k = v := by
  constructor
  · intro hv
    obtain ⟨hk, rfl⟩ := build_alog_origin h hv
    exact ⟨hk, rfl⟩
  · rintro ⟨hk, rfl⟩
    exact build_alog h hk

/-- The log table is the inverse of the generator values with an index in 1..size-1: the entry that the index 0 writes,
`LOG[1]`, is overwritten at the end of the cycle. -/
theorem build_read_log_iff (low : 2 ≤ w) (hp : PrimitiveAt w p) (h : build w p #[] #[] = .ok (L, A)) {x v : Nat} :
    Table.read L x = some v ↔ 1 ≤ v ∧ v ≤ 2 ^ w - 1 ∧ genPow w p v = x := by
  constructor
  · intro hv
    obtain ⟨hlt, rfl⟩ := build_log_origin h hv
    refine ⟨Nat.pos_of_ne_zero ?_, by omega, rfl⟩
    rintro rfl
    have size := Nat.one_lt_two_pow (n := w) (by omega)
    have last := build_log hp h (k := 2 ^ w - 1) (by omega) (Nat.le_refl _)
    have same : genPow w p (2 ^ w - 1) = genPow w p 0 := hp.returns
    rw [same, hv, Option.some.injEq] at last
    omega
  · rintro ⟨h1, hle, rfl⟩
    exact build_log hp h h1 hle

end BuildOfPrimitive

end Sys2Proof.Machine
end

/-! # The obligations of spec/40_rom_and_build.md -/

section
open Sys2Proof Sys2Proof.Machine

/-- Settles O21: `ALOG` is the generator values and `LOG` their inverse over the exponents 1..size-1; each of R113's
points is read off these two descriptions and what R22 says of the cycle. -/
theorem buildTableContents : Obligations.BuildTableContents := by
  refine ⟨fun w p low hp => ?_, by decide⟩
  obtain ⟨L, A, hb⟩ := build_ok low hp #[] #[]
  have size := Nat.one_lt_two_pow (n := w) (by omega)
  have alog {k v : Nat} := build_read_alog_iff hb (k := k) (v := v)
  have log {x v : Nat} := build_read_log_iff low hp hb (x := x) (v := v)
  refine ⟨L, A, hb, ?powers, ?first, ?last, ?cycle, ?uniqueLog, ?logOne, ?logZero, ?undoes, ?bounds, ?onlyOne⟩
  case powers => exact fun k hk => alog.2 ⟨hk, rfl⟩
  case first => exact alog.2 ⟨by omega, genPow_zero w p⟩
  case last => exact alog.2 ⟨by omega, hp.returns⟩
  case cycle =>
    intro x hx h1
    obtain ⟨k, hk, hkx⟩ := hp.every x hx h1
    exact ⟨k, hk, alog.2 ⟨by omega, hkx⟩, fun j hj hjx => hp.once j hj k hk ((alog.1 hjx).2.trans hkx.symm)⟩
  case uniqueLog =>
    intro x hx h2
    obtain ⟨k, h1, hle, hkx⟩ := exists_genPow_eq hp hx (by omega)
    have hlast : k ≠ 2 ^ w - 1 := by
      rintro rfl
      have := hp.returns
      omega
    have hread : Table.read L x = some k := log.2 ⟨h1, hle, hkx⟩
    refine ⟨k, h1, by omega, hkx, hread, fun j hj1 hj hjx => ?_⟩
    exact Option.some.inj ((log.2 ⟨hj1, by omega, hjx⟩).symm.trans hread)
  case logOne => exact log.2 ⟨by omega, Nat.le_refl _, hp.returns⟩
  case logZero =>
    refine Option.eq_none_iff_forall_ne_some.2 fun v hv => ?_
    have hzero := (log.1 hv).2.2
    have := genPow_pos low hp v
    omega
  case undoes =>
    intro x hx h1
    obtain ⟨l, hl1, hle, hlx⟩ := exists_genPow_eq hp hx h1
    exact ⟨l, log.2 ⟨hl1, hle, hlx⟩, alog.2 ⟨by omega, hlx⟩⟩
  case bounds =>
    rintro i v (hl | ha)
    · obtain ⟨h1, hle, rfl⟩ := log.1 hl
      exact ⟨genPow_lt low hp v, h1, hle⟩
    · obtain ⟨hi, rfl⟩ := alog.1 ha
      exact ⟨hi, genPow_pos low hp i, Nat.le_sub_one_of_lt (genPow_lt low hp i)⟩
  case onlyOne =>
    intro i hi
    obtain ⟨-, -, hlast⟩ := log.1 hi
    exact hlast.symm.trans hp.returns
end

/-! # Multiplication on log tables (spec/41_multiply.md) -/

section
namespace Sys2Proof.Machine

/-! ### The generator step is linear -/

section Generator

variable {w p : Nat}

/-- Doubling and reducing distributes over exclusive-or, since the bit that decides on the reduction does. -/
theorem advance_xor (w p x y : Nat) : advance w p (x ^^^ y) = advance w p x ^^^ advance w p y := by
  have decides : ((x ^^^ y) <<< 1).testBit w = ((x <<< 1).testBit w ^^ (y <<< 1).testBit w) := by
    rw [Nat.shiftLeft_xor_distrib, Nat.testBit_xor]
  rw [advance_eq, advance_eq, advance_eq, decides, Nat.shiftLeft_xor_distrib]
  cases (x <<< 1).testBit w <;> cases (y <<< 1).testBit w
  · simp
  · simp [Nat.xor_assoc]
  · simp [Nat.xor_assoc, Nat.xor_comm p]
  · simp [Nat.xor_assoc, Nat.xor_left_comm p]

theorem advance_iterate_xor (w p i x y : Nat) :
    (advance w p)^[i] (x ^^^ y) = (advance w p)^[i] x ^^^ (advance w p)^[i] y := by
  induction i with
  | zero => rfl
  | succ i ih => simp only [Function.iterate_succ_apply', ih, advance_xor]

theorem advance_iterate_zero (w p i : Nat) : (advance w p)^[i] 0 = 0 := Function.iterate_fixed (advance_zero w p) i

theorem advance_iterate_lt (hp : PrimitiveAt w p) {x : Nat} (hx : x < 2 ^ w) (i : Nat) :
    (advance w p)^[i] x < 2 ^ w := by
  induction i with
  | zero => exact hx
  | succ i ih =>
    rw [Function.iterate_succ_apply']
    exact advance_lt hp.degree ih

/-- Adding `i` to the exponent is `i` steps more. -/
theorem genPow_add (w p i k : Nat) : genPow w p (i + k) = (advance w p)^[i] (genPow w p k) := by
  induction i with
  | zero => rw [Nat.zero_add, Function.iterate_zero_apply]
  | succ i ih => rw [Nat.succ_add, genPow_succ, ih, Function.iterate_succ_apply']

/-- A sum of two exponents gives a value that only the values at the two exponents decide. -/
theorem genPow_add_congr {i i' j j' : Nat} (hi : genPow w p i = genPow w p i') (hj : genPow w p j = genPow w p j') :
    genPow w p (i + j) = genPow w p (i' + j') := by
  calc genPow w p (i + j) = genPow w p (i + j') := by rw [genPow_add, hj, ← genPow_add]
    _ = genPow w p (i' + j') := by rw [Nat.add_comm, genPow_add, hi, ← genPow_add, Nat.add_comm]

/-- An element is 0 or a power of the generator. -/
theorem eq_zero_or_genPow (hp : PrimitiveAt w p) {a : Nat} (ha : a < 2 ^ w) : a = 0 ∨ ∃ k, a = genPow w p k := by
  rcases Nat.eq_zero_or_pos a with h0 | h1
  · exact .inl h0
  · obtain ⟨k, -, hk⟩ := hp.every a ha h1
    exact .inr ⟨k, hk.symm⟩

/-- Within one cycle the generator value is 1 only at its end. -/
theorem genPow_eq_one_iff (hp : PrimitiveAt w p) {k : Nat} (h1 : 1 ≤ k) (hk : k ≤ 2 ^ w - 1) :
    genPow w p k = 1 ↔ k = 2 ^ w - 1 := by
  constructor
  · intro h
    by_contra hne
    exact genPow_ne_of_lt hp h1 (by omega) (Nat.le_refl _) (hp.returns.trans h.symm)
  · rintro rfl
    exact hp.returns

/-! ### The wraparound correction -/

/-- One subtraction brings a sum of two logs below size (spec/41_multiply.md R143). -/
theorem wrapSum_le {n : Nat} (h : n ≤ 2 * (2 ^ w - 1)) : wrapSum w n ≤ 2 ^ w - 1 := by
  rw [wrapSum, fieldSize_eq]
  split <;> omega

/-- A sum of two logs is corrected to size-1 only from the largest sum (spec/41_multiply.md R143). -/
theorem wrapSum_eq_last_iff {n : Nat} (h1 : 1 ≤ n) :
    wrapSum w n = 2 ^ w - 1 ↔ n = 2 * (2 ^ w - 1) := by
  rw [wrapSum, fieldSize_eq]
  split <;> omega

/-- The correction goes round the cycle once and so keeps the generator value. -/
theorem genPow_wrapSum (hp : PrimitiveAt w p) (n : Nat) : genPow w p (wrapSum w n) = genPow w p n := by
  rw [wrapSum, fieldSize_eq]
  split
  · next h => rw [← genPow_add_period hp, Nat.sub_add_cancel h]
  · rfl

end Generator

/-! ### What `MulCore` can do -/

/-- A zero operand is looked at first (spec/41_multiply.md R140 step 1). -/
theorem mulCore_of_zero {w a b : Nat} (s : State) (h : a = 0 ∨ b = 0) : mulCore w a b s = .ok 0 := by
  rw [mulCore, if_pos h]

/-- Nonzero operands are checked against the size (spec/41_multiply.md R140 step 2). -/
theorem mulCore_of_outside {w a b : Nat} (s : State) (ha : a ≠ 0) (hb : b ≠ 0) (h : 2 ^ w ≤ a ∨ 2 ^ w ≤ b) :
    mulCore w a b s = .raise .outOfRange := by
  simp [mulCore, outside, ha, hb, h]

/-- Nonzero elements are multiplied by the tables (spec/41_multiply.md R140 step 3). -/
theorem mulCore_of_entries {w a b la lb v : Nat} {s : State} (ha : a ≠ 0) (hb : b ≠ 0) (ha' : a < 2 ^ w)
    (hb' : b < 2 ^ w) (hla : s.logAt w a = some la) (hlb : s.logAt w b = some lb) (hsum : wrapSum w (la + lb) < 2 ^ w)
    (hv : s.alogAt w (wrapSum w (la + lb)) = some v) : mulCore w a b s = .ok v := by
  have inside : ¬ (outside w a ∨ outside w b) := by simp [outside, ha', hb']
  rw [mulCore, if_neg (not_or.2 ⟨ha, hb⟩), if_neg inside, readLog, tblRead_ok ha' hla, Res.bind_ok, readLog,
    tblRead_ok hb' hlb, Res.bind_ok, readAlog, tblRead_ok hsum hv]

/-! ### Multiplication over tables of logs and powers -/

/-- All that multiplication asks of the tables of width `w`: an entry of `LOG` is some log of its index to the
generator of `p`, not necessarily the one `Build(w)` stores, and `ALOG` lists the powers. -/
structure State.LogTables (s : State) (w p : Nat) : Prop where
  log : ∀ a < 2 ^ w, 1 ≤ a → ∃ l ≤ 2 ^ w - 1, s.logAt w a = some l ∧ genPow w p l = a
  alog : ∀ k < 2 ^ w, s.alogAt w k = some (genPow w p k)

/-- A built slot of a served width has such tables. -/
theorem State.Serves.logTables {s : State} {w : Nat} (hs : s.Serves w) (hv : s.validAt w = true) :
    s.LogTables w (s.romAt w) where
  log a ha h1 := by
    obtain ⟨l, -, hle, hpow, hlog, -⟩ := hs.exists_log hv ha h1
    exact ⟨l, hle, hlog, hpow⟩
  alog _ hk := hs.alogAt_eq hv hk

section LogTables

variable {s : State} {w p : Nat} (low : 2 ≤ w) (hp : PrimitiveAt w p) (ht : s.LogTables w p)

include low hp ht

/-- Multiplication adds exponents. -/
theorem mulCore_genPow (i j : Nat) : mulCore w (genPow w p i) (genPow w p j) s = .ok (genPow w p (i + j)) := by
  have pos := genPow_pos low hp
  have lt := genPow_lt low hp
  obtain ⟨la, hla, hlogA, hpowA⟩ := ht.log _ (lt i) (pos i)
  obtain ⟨lb, hlb, hlogB, hpowB⟩ := ht.log _ (lt j) (pos j)
  have size : 0 < 2 ^ w := Nat.two_pow_pos w
  have hle : wrapSum w (la + lb) ≤ 2 ^ w - 1 := wrapSum_le (by omega)
  have product : genPow w p (wrapSum w (la + lb)) = genPow w p (i + j) :=
    (genPow_wrapSum hp _).trans (genPow_add_congr hpowA hpowB)
  refine mulCore_of_entries (Nat.ne_of_gt (pos i)) (Nat.ne_of_gt (pos j)) (lt i) (lt j) hlogA hlogB (by omega) ?_
  rw [ht.alog _ (by omega), product]

/-- Multiplying an element by the `i`-th power of the generator is `i` steps of doubling and reducing. -/
theorem mulCore_genPow_left (i : Nat) {x : Nat} (hx : x < 2 ^ w) :
    mulCore w (genPow w p i) x s = .ok ((advance w p)^[i] x) := by
  obtain rfl | ⟨j, rfl⟩ := eq_zero_or_genPow hp hx
  · rw [mulCore_of_zero s (.inr rfl), advance_iterate_zero]
  · rw [mulCore_genPow low hp ht, genPow_add]

/-- Two elements commute, their product is an element, and it is 0 only with an operand. -/
theorem exists_mulCore_comm {a b : Nat} (ha : a < 2 ^ w) (hb : b < 2 ^ w) :
    ∃ v < 2 ^ w, mulCore w a b s = .ok v ∧ mulCore w b a s = .ok v ∧ (a ≠ 0 → b ≠ 0 → v ≠ 0) := by
  by_cases h0 : a = 0 ∨ b = 0
  · exact ⟨0, Nat.two_pow_pos w, mulCore_of_zero s h0, mulCore_of_zero s h0.symm,
      fun hna hnb => absurd h0 (not_or.2 ⟨hna, hnb⟩)⟩
  · obtain ⟨i, rfl⟩ := (eq_zero_or_genPow hp ha).resolve_left (not_or.1 h0).1
    obtain ⟨j, rfl⟩ := (eq_zero_or_genPow hp hb).resolve_left (not_or.1 h0).2
    refine ⟨genPow w p (i + j), genPow_lt low hp _, mulCore_genPow low hp ht i j, ?_, fun _ _ => ?_⟩
    · rw [mulCore_genPow low hp ht, Nat.add_comm]
    · exact Nat.ne_of_gt (genPow_pos low hp _)

/-- Multiplying by a product of two powers is taking the steps of both. -/
theorem exists_mulCore_assoc {a b c : Nat} (ha : a < 2 ^ w) (hb : b < 2 ^ w) (hc : c < 2 ^ w) :
    ∃ ab bc v, mulCore w a b s = .ok ab ∧ mulCore w ab c s = .ok v ∧ mulCore w b c s = .ok bc ∧
      mulCore w a bc s = .ok v := by
  have zero {x y : Nat} (h : x = 0 ∨ y = 0) : mulCore w x y s = .ok 0 := mulCore_of_zero s h
  have step (i : Nat) {x : Nat} (hx : x < 2 ^ w) := mulCore_genPow_left low hp ht i hx
  obtain rfl | ⟨i, rfl⟩ := eq_zero_or_genPow hp ha
  · obtain ⟨bc, -, hbc, -⟩ := exists_mulCore_comm low hp ht hb hc
    exact ⟨0, bc, 0, zero (.inl rfl), zero (.inl rfl), hbc, zero (.inl rfl)⟩
  obtain rfl | ⟨j, rfl⟩ := eq_zero_or_genPow hp hb
  · exact ⟨0, 0, 0, zero (.inr rfl), zero (.inl rfl), zero (.inl rfl), zero (.inr rfl)⟩
  · refine ⟨genPow w p (i + j), (advance w p)^[j] c, (advance w p)^[i + j] c, mulCore_genPow low hp ht i j,
      step _ hc, step _ hc, ?_⟩
    rw [step i (advance_iterate_lt hp hc j), Function.iterate_add_apply]

/-- Distributivity is the linearity of the generator step. -/
theorem exists_mulCore_xor {a b c : Nat} (ha : a < 2 ^ w) (hb : b < 2 ^ w) (hc : c < 2 ^ w) :
    ∃ ab ac, mulCore w a b s = .ok ab ∧ mulCore w a c s = .ok ac ∧ mulCore w a (b ^^^ c) s = .ok (ab ^^^ ac) := by
  obtain rfl | ⟨i, rfl⟩ := eq_zero_or_genPow hp ha
  · have zero (x : Nat) : mulCore w 0 x s = .ok 0 := mulCore_of_zero s (.inl rfl)
    exact ⟨0, 0, zero b, zero c, zero _⟩
  · have step {x : Nat} (hx : x < 2 ^ w) := mulCore_genPow_left low hp ht i hx
    refine ⟨_, _, step hb, step hc, ?_⟩
    rw [step (Nat.xor_lt_two_pow hb hc), advance_iterate_xor]

theorem mulCore_one {a : Nat} (ha : a < 2 ^ w) : mulCore w a 1 s = .ok a := by
  obtain rfl | ⟨i, rfl⟩ := eq_zero_or_genPow hp ha
  · exact mulCore_of_zero s (.inl rfl)
  · exact mulCore_genPow low hp ht i 0

/-- Over tables of logs and powers the product of any two operands is the same, whichever logs are stored. -/
theorem mulCore_eq_of_logTables {t : State} (ht' : t.LogTables w p) (a b : Nat) :
    mulCore w a b t = mulCore w a b s := by
  by_cases h0 : a = 0 ∨ b = 0
  · rw [mulCore_of_zero t h0, mulCore_of_zero s h0]
  obtain ⟨ha, hb⟩ := not_or.1 h0
  by_cases hout : 2 ^ w ≤ a ∨ 2 ^ w ≤ b
  · rw [mulCore_of_outside t ha hb hout, mulCore_of_outside s ha hb hout]
  · obtain ⟨i, rfl⟩ := (eq_zero_or_genPow hp (by omega : a < 2 ^ w)).resolve_left ha
    obtain ⟨j, rfl⟩ := (eq_zero_or_genPow hp (by omega : b < 2 ^ w)).resolve_left hb
    rw [mulCore_genPow low hp ht, mulCore_genPow low hp ht']

omit hp in
/-- The element 1 has the log 0 as well (spec/41_multiply.md R143). -/
theorem State.LogTables.write_log_one (hin : w - 2 < s.slots.length) :
    (s.setSlot w { s.slot w with log := Table.write (s.slot w).log 1 0 }).LogTables w p := by
  have hslot := s.setSlot_slot_same { s.slot w with log := Table.write (s.slot w).log 1 0 } low hin
  refine ⟨fun a ha h1 => ?_, fun k hk => ?_⟩
  · rw [State.logAt, hslot]
    by_cases ha1 : a = 1
    · subst ha1
      exact ⟨0, Nat.zero_le _, Table.read_write_same _ 1 0, rfl⟩
    · obtain ⟨l, hle, hlog, hpow⟩ := ht.log a ha h1
      exact ⟨l, hle, (Table.read_write_ne _ 0 ha1).trans hlog, hpow⟩
  · rw [State.alogAt, hslot]
    exact ht.alog k hk

end LogTables

/-! ### MUL and its `Lookup` -/

/-- `Lookup` succeeds on a served width and leaves it served and built. -/
theorem State.Serves.exists_lookup {s : State} {w : Nat} (hs : s.Serves w) :
    ∃ t, lookup w s = .ok t ∧ t.Serves w ∧ t.validAt w = true := by
  have found : ∃ t, lookup w s = .ok t := by
    cases hv : s.validAt w with
    | true => exact ⟨s, lookup_of_built hs.low hs.high hv⟩
    | false =>
      have hw : w < 32 := Nat.lt_succ_of_le (hs.high.trans hs.inv.widths.2)
      obtain ⟨L, A, hb⟩ := build_ok hs.low hs.prim (s.slot w).log (s.slot w).alog
      refine ⟨s.setSlot w { valid := true, log := L, alog := A }, ?_⟩
      simp [lookup, badWidth_eq_false_iff.2 ⟨hs.low, hs.high⟩, hv, buildSlot, readRom_ok s hw, hb]
  obtain ⟨t, hl⟩ := found
  have hrom : t.romAt w = s.romAt w := by rw [State.romAt, State.romAt, lookup_keeps_rom hl]
  refine ⟨t, hl, ⟨lookup_keeps_inv hl hs.inv, hs.low, ?_, ?_⟩, lookup_validAt hl hs.inv⟩
  · rw [lookup_keeps_maxWidth hl]
    exact hs.high
  · rw [hrom]
    exact hs.prim

/-- After a `Lookup` that succeeds MUL ends as `MulCore` does. -/
theorem exec_mul_of_lookup {w a b : Nat} {s t : State} (h : lookup w s = .ok t) :
    exec (.mul w a b) s = finish (mulCore w a b t) t := exec_of_lookup (i := .mul w a b) h

end Sys2Proof.Machine
end

/-! # The obligations of spec/41_multiply.md -/

section
open Sys2Proof Sys2Proof.Machine

/-- Settles O44: the nonzero elements are the powers of the generator, multiplication adds their exponents, and a power
multiplies by steps that are linear. -/
theorem multiplicationLaws : Obligations.MultiplicationLaws := by
  intro s w hs hv
  have ht := hs.logTables hv
  refine ⟨fun a b ha hb => exists_mulCore_comm hs.low hs.prim ht ha hb,
    fun a b c ha hb hc => exists_mulCore_assoc hs.low hs.prim ht ha hb hc,
    fun a b c ha hb hc => exists_mulCore_xor hs.low hs.prim ht ha hb hc, fun a ha => ?_⟩
  exact ⟨mulCore_one hs.low hs.prim ht ha, mulCore_of_zero s (.inl rfl), mulCore_of_zero s (.inr rfl)⟩

/-- Settles O48: a log is an exponent of its index in 1..size-1, and 1 alone has the last; the table with 0 stored at 1
is still one of logs. -/
theorem logSumBounds : Obligations.LogSumBounds := by
  intro s w hs hv
  have ht := hs.logTables hv
  refine ⟨fun a b ha hb hla hlb => ?bounds, ?independent⟩
  case bounds =>
    obtain ⟨la, ha1, haN, hpowA, hlogA, -⟩ := hs.exists_log hv hla (Nat.pos_of_ne_zero ha)
    obtain ⟨lb, hb1, hbN, hpowB, hlogB, -⟩ := hs.exists_log hv hlb (Nat.pos_of_ne_zero hb)
    have hwrap : wrapSum w (la + lb) ≤ 2 ^ w - 1 := wrapSum_le (by omega)
    have hlast : wrapSum w (la + lb) = 2 ^ w - 1 ↔ a = 1 ∧ b = 1 := by
      rw [wrapSum_eq_last_iff (by omega), ← hpowA, ← hpowB, genPow_eq_one_iff hs.prim ha1 haN,
        genPow_eq_one_iff hs.prim hb1 hbN]
      omega
    have hpow : 2 ^ (w + 1) = 2 * 2 ^ w := Nat.pow_succ'
    exact ⟨la, lb, hlogA, hlogB, ⟨ha1, haN⟩, ⟨hb1, hbN⟩, by omega, by omega, by omega, hwrap,
      ⟨_, hs.alogAt_eq hv (by omega)⟩, hlast⟩
  case independent =>
    have hin : w - 2 < s.slots.length := by
      have := hs.low
      have := hs.high
      rw [hs.inv.bank]
      omega
    exact mulCore_eq_of_logTables hs.low hs.prim ht (ht.write_log_one hs.low hin)

/-- Settles O28: the first two steps look at no table; the third finds both logs written, and their corrected sum in
the index range of `ALOG`. -/
theorem mulCoreFollowsItsRule : Obligations.MulCoreFollowsItsRule := by
  refine ⟨fun s w a b h => mulCore_of_zero s h, fun s w a b ha hb h => mulCore_of_outside s ha hb h, ?tables⟩
  case tables =>
    intro s w a b hs hv ha hb hla hlb
    obtain ⟨bounds, -⟩ := logSumBounds s w hs hv
    obtain ⟨la, lb, hlogA, hlogB, -, -, -, -, -, hwrap, ⟨v, hread⟩, -⟩ := bounds a b ha hb hla hlb
    have hproduct := mulCore_of_entries ha hb hla hlb hlogA hlogB (by omega) hread
    rw [wrapSum, fieldSize_eq] at hread
    exact ⟨la, lb, v, hlogA, hlogB, hread, hproduct⟩

/-- Settles O29: after its `Lookup`, which succeeds on a served width, MUL ends as `MulCore` does. -/
theorem mulFollowsItsRule : Obligations.MulFollowsItsRule := by
  refine ⟨fun s w a b h => exec_of_bad h, fun s w hs => ?served, fun s hs => ?worked⟩
  case served =>
    obtain ⟨t, hl, hst, hv⟩ := hs.exists_lookup
    have ht := hst.logTables hv
    have ends {a b v : Nat} (h : mulCore w a b t = .ok v) : exec (.mul w a b) s = .next (t.respond .ok v) := by
      rw [exec_mul_of_lookup hl, h, finish]
    refine ⟨t, hl, fun a b => ⟨fun h => ends (mulCore_of_zero t h), fun ha hb h => ?outside,
      fun _ _ ha hb => ?elements, fun ha => ends (mulCore_one hst.low hst.prim ht ha)⟩⟩
    case outside =>
      rw [exec_mul_of_lookup hl, mulCore_of_outside t ha hb h]
      rfl
    case elements =>
      obtain ⟨v, hlt, hmul, -⟩ := exists_mulCore_comm hst.low hst.prim ht ha hb
      have hw : w ≤ 32 := (hs.high.trans hs.inv.widths.2).trans (by decide)
      exact ⟨v, Nat.lt_of_lt_of_le hlt (Nat.pow_le_pow_right (by omega) hw), hmul, ends hmul⟩
  case worked =>
    obtain ⟨t, hl, hst, hv⟩ := hs.exists_lookup
    have hrom : t.romAt 2 = 7 := (romEntryTwoIsForced.1 _).1 hst.prim
    have ht := hst.logTables hv
    rw [hrom] at ht
    have hmul : mulCore 2 2 3 t = .ok 1 := mulCore_genPow (by omega) ((romEntryTwoIsForced.1 7).2 rfl) ht 1 2
    exact ⟨t, hl, by rw [exec_mul_of_lookup hl, hmul, finish]⟩
end

/-! # Division on log tables (spec/42_divide.md) -/

section
namespace Sys2Proof.Machine

/-! ### Differences of exponents -/

section Generator

variable {w p : Nat}

/-- Whole cycles more keep the generator value. -/
theorem genPow_add_mul_period (hp : PrimitiveAt w p) (k n : Nat) :
    genPow w p (k + n * (2 ^ w - 1)) = genPow w p k := by
  rw [← genPow_mod hp, Nat.add_mul_mod_self_right, genPow_mod hp]

/-- `j * (size-2)` more steps after `j` steps end whole cycles: they undo the `j` steps. -/
theorem genPow_add_undo (low : 2 ≤ w) (hp : PrimitiveAt w p) (k j : Nat) :
    genPow w p (k + j + j * (2 ^ w - 2)) = genPow w p k := by
  have size : 2 ^ w - 1 = 2 ^ w - 2 + 1 := by
    have := Nat.le_self_pow (show w ≠ 0 by omega) 2
    omega
  have cycles : k + j + j * (2 ^ w - 2) = k + j * (2 ^ w - 1) := by
    rw [size, Nat.mul_succ]
    omega
  rw [cycles, genPow_add_mul_period hp]

theorem genPow_add_right_cancel (low : 2 ≤ w) (hp : PrimitiveAt w p) {i k j : Nat}
    (h : genPow w p (i + j) = genPow w p (k + j)) : genPow w p i = genPow w p k := by
  calc genPow w p i = genPow w p (i + j + j * (2 ^ w - 2)) := (genPow_add_undo low hp i j).symm
    _ = genPow w p (k + j + j * (2 ^ w - 2)) := genPow_add_congr h rfl
    _ = genPow w p k := genPow_add_undo low hp k j

/-- Of two nonzero elements the one is reached from the other by some steps. -/
theorem exists_genPow_add_eq (low : 2 ≤ w) (hp : PrimitiveAt w p) {a b : Nat} (ha : a ≠ 0) (hb : b ≠ 0)
    (ha' : a < 2 ^ w) (hb' : b < 2 ^ w) : ∃ i j, genPow w p (i + j) = a ∧ genPow w p j = b := by
  obtain ⟨k, rfl⟩ := (eq_zero_or_genPow hp ha').resolve_left ha
  obtain ⟨j, rfl⟩ := (eq_zero_or_genPow hp hb').resolve_left hb
  refine ⟨k + j * (2 ^ w - 2), j, ?_, rfl⟩
  rw [Nat.add_right_comm, genPow_add_undo low hp]

/-- The corrected difference of two logs, added to the second log, gives the first, or the first and one cycle more
where the difference was negative (spec/42_divide.md R153). -/
theorem exists_wrapDiff_eq {la lb : Nat} (hlb : lb ≤ 2 ^ w - 1) :
    ∃ d : Nat, wrapDiff w ((la : Int) - lb) = d ∧ (d + lb = la ∨ la < lb ∧ d + lb = la + (2 ^ w - 1)) := by
  have size : 0 < 2 ^ w := Nat.two_pow_pos w
  rw [wrapDiff, fieldSize_eq]
  split
  · exact ⟨la + (2 ^ w - 1) - lb, by omega, .inr (by omega)⟩
  · exact ⟨la - lb, by omega, .inl (by omega)⟩

end Generator

/-! ### What `DivCore` can do -/

/-- A zero divisor is looked at first (spec/42_divide.md R150 step 1). -/
theorem divCore_of_zero_divisor (w a : Nat) (s : State) : divCore w a 0 s = .raise .divideByZero := by
  rw [divCore, if_pos rfl]

/-- A zero dividend is looked at next (spec/42_divide.md R150 step 2). -/
theorem divCore_of_zero_dividend {w b : Nat} (s : State) (hb : b ≠ 0) : divCore w 0 b s = .ok 0 := by
  rw [divCore, if_neg hb, if_pos rfl]

/-- Nonzero operands are checked against the size (spec/42_divide.md R150 step 3). -/
theorem divCore_of_outside {w a b : Nat} (s : State) (ha : a ≠ 0) (hb : b ≠ 0) (h : 2 ^ w ≤ a ∨ 2 ^ w ≤ b) :
    divCore w a b s = .raise .outOfRange := by
  simp [divCore, outside, ha, hb, h]

/-- Nonzero elements are divided by the tables (spec/42_divide.md R150 step 4). -/
theorem divCore_of_entries {w a b la lb d v : Nat} {s : State} (ha : a ≠ 0) (hb : b ≠ 0) (ha' : a < 2 ^ w)
    (hb' : b < 2 ^ w) (hla : s.logAt w a = some la) (hlb : s.logAt w b = some lb)
    (hd : wrapDiff w ((la : Int) - lb) = d) (hlt : d < 2 ^ w) (hv : s.alogAt w d = some v) :
    divCore w a b s = .ok v := by
  have inside : ¬ (outside w a ∨ outside w b) := by simp [outside, ha', hb']
  rw [divCore, if_neg hb, if_neg ha, if_neg inside, readLog, tblRead_ok ha' hla, Res.bind_ok, readLog,
    tblRead_ok hb' hlb, Res.bind_ok, hd, Int.toNat_natCast, readAlog, tblRead_ok hlt hv]

/-! ### Division over tables of logs and powers -/

section LogTables

variable {s : State} {w p : Nat} (low : 2 ≤ w) (hp : PrimitiveAt w p) (ht : s.LogTables w p)

include low hp ht

/-- Division subtracts exponents. -/
theorem divCore_genPow (i j : Nat) : divCore w (genPow w p (i + j)) (genPow w p j) s = .ok (genPow w p i) := by
  have pos := genPow_pos low hp
  have lt := genPow_lt low hp
  obtain ⟨la, hla, hlogA, hpowA⟩ := ht.log _ (lt (i + j)) (pos (i + j))
  obtain ⟨lb, hlb, hlogB, hpowB⟩ := ht.log _ (lt j) (pos j)
  have size : 0 < 2 ^ w := Nat.two_pow_pos w
  obtain ⟨d, hwrap, hd⟩ := exists_wrapDiff_eq (la := la) hlb
  have back : genPow w p (d + lb) = genPow w p la := by
    obtain h | ⟨-, h⟩ := hd
    · rw [h]
    · rw [h, genPow_add_period hp]
  have quotient : genPow w p d = genPow w p i := by
    apply genPow_add_right_cancel low hp (j := j)
    calc genPow w p (d + j) = genPow w p (d + lb) := genPow_add_congr rfl hpowB.symm
      _ = genPow w p (i + j) := back.trans hpowA
  refine divCore_of_entries (Nat.ne_of_gt (pos _)) (Nat.ne_of_gt (pos j)) (lt _) (lt j) hlogA hlogB hwrap
    (by omega) ?_
  rw [ht.alog d (by omega), quotient]

/-- The quotient of two nonzero elements is a nonzero element, and multiplication undoes the division. -/
theorem exists_divCore_mulCore {a b : Nat} (ha : a ≠ 0) (hb : b ≠ 0) (ha' : a < 2 ^ w) (hb' : b < 2 ^ w) :
    ∃ q, divCore w a b s = .ok q ∧ mulCore w q b s = .ok a ∧ q ≠ 0 ∧ q < 2 ^ w := by
  obtain ⟨i, j, rfl, rfl⟩ := exists_genPow_add_eq low hp ha hb ha' hb'
  exact ⟨genPow w p i, divCore_genPow low hp ht i j, mulCore_genPow low hp ht i j,
    Nat.ne_of_gt (genPow_pos low hp i), genPow_lt low hp i⟩

/-- Division undoes multiplication. -/
theorem exists_mulCore_divCore {a b : Nat} (ha : a ≠ 0) (hb : b ≠ 0) (ha' : a < 2 ^ w) (hb' : b < 2 ^ w) :
    ∃ m, mulCore w a b s = .ok m ∧ divCore w m b s = .ok a := by
  obtain ⟨i, rfl⟩ := (eq_zero_or_genPow hp ha').resolve_left ha
  obtain ⟨j, rfl⟩ := (eq_zero_or_genPow hp hb').resolve_left hb
  exact ⟨genPow w p (i + j), mulCore_genPow low hp ht i j, divCore_genPow low hp ht i j⟩

theorem divCore_one {a : Nat} (ha : a < 2 ^ w) : divCore w a 1 s = .ok a := by
  obtain rfl | ⟨i, rfl⟩ := eq_zero_or_genPow hp ha
  · exact divCore_of_zero_dividend s one_ne_zero
  · exact divCore_genPow low hp ht i 0

theorem divCore_self {a : Nat} (h0 : a ≠ 0) (ha : a < 2 ^ w) : divCore w a a s = .ok 1 := by
  obtain ⟨j, rfl⟩ := (eq_zero_or_genPow hp ha).resolve_left h0
  simpa using divCore_genPow low hp ht 0 j

/-- The inverse of a power is the power that ends the cycle. -/
theorem divCore_one_genPow {l : Nat} (hl : l ≤ 2 ^ w - 1) :
    divCore w 1 (genPow w p l) s = .ok (genPow w p (2 ^ w - 1 - l)) := by
  have h := divCore_genPow low hp ht (2 ^ w - 1 - l) l
  rwa [Nat.sub_add_cancel hl, hp.returns] at h

/-- Over tables of logs and powers the quotient of any two operands is the same, whichever logs are stored. -/
theorem divCore_eq_of_logTables {t : State} (ht' : t.LogTables w p) (a b : Nat) :
    divCore w a b t = divCore w a b s := by
  by_cases hb : b = 0
  · rw [hb, divCore_of_zero_divisor, divCore_of_zero_divisor]
  by_cases ha : a = 0
  · rw [ha, divCore_of_zero_dividend t hb, divCore_of_zero_dividend s hb]
  by_cases hout : 2 ^ w ≤ a ∨ 2 ^ w ≤ b
  · rw [divCore_of_outside t ha hb hout, divCore_of_outside s ha hb hout]
  · obtain ⟨ha', hb'⟩ := not_or.1 hout
    obtain ⟨i, j, rfl, rfl⟩ := exists_genPow_add_eq low hp ha hb (Nat.lt_of_not_le ha') (Nat.lt_of_not_le hb')
    rw [divCore_genPow low hp ht, divCore_genPow low hp ht']

end LogTables

/-! ### DIV and its `Lookup` -/

/-- The registry has the slot of a served width. -/
theorem State.Serves.slot_index_lt {s : State} {w : Nat} (hs : s.Serves w) : w - 2 < s.slots.length := by
  have := hs.low
  have := hs.high
  rw [hs.inv.bank]
  omega

/-- After a `Lookup` that succeeds DIV ends as `DivCore` does. -/
theorem exec_div_of_lookup {w a b : Nat} {s t : State} (h : lookup w s = .ok t) :
    exec (.div w a b) s = finish (divCore w a b t) t := exec_of_lookup (i := .div w a b) h

end Sys2Proof.Machine
end

/-! # The obligations of spec/42_divide.md -/

section
open Sys2Proof Sys2Proof.Machine

/-- Settles O46: the nonzero elements are the powers of the generator, and division subtracts the exponents that
multiplication adds. -/
theorem divisionLaws : Obligations.DivisionLaws := by
  intro s w hs hv
  have ht := hs.logTables hv
  refine ⟨fun a b ha hb ha' hb' => ⟨?_, ?_⟩, fun b _ hb => divCore_of_zero_dividend s hb,
    fun a ha => divCore_one hs.low hs.prim ht ha, fun a ha h0 => divCore_self hs.low hs.prim ht h0 ha⟩
  · exact exists_divCore_mulCore hs.low hs.prim ht ha hb ha' hb'
  · exact exists_mulCore_divCore hs.low hs.prim ht ha hb ha' hb'

/-- Settles O49: both logs are in 1..size-1, so their corrected difference stays below size-1; the table with 0 stored
at 1 is still one of logs. -/
theorem logDifferenceBounds : Obligations.LogDifferenceBounds := by
  intro s w hs hv
  have ht := hs.logTables hv
  refine ⟨fun a b ha hb ha' hb' => ?bounds,
    divCore_eq_of_logTables hs.low hs.prim ht (ht.write_log_one hs.low hs.slot_index_lt)⟩
  case bounds =>
    obtain ⟨la, hla1, hlaN, -, hlogA, -⟩ := hs.exists_log hv ha' (Nat.pos_of_ne_zero ha)
    obtain ⟨lb, hlb1, hlbN, -, hlogB, -⟩ := hs.exists_log hv hb' (Nat.pos_of_ne_zero hb)
    obtain ⟨d, hwrap, hd⟩ := exists_wrapDiff_eq (la := la) hlbN
    have hdle : d ≤ 2 ^ w - 2 := by omega
    have hread : s.alogAt w d = some _ := hs.alogAt_eq hv (by omega)
    have cast : ((2 ^ w : Nat) : Int) = (2 : Int) ^ w := Nat.cast_pow 2 w
    refine ⟨la, lb, hlogA, hlogB, ⟨hla1, hlaN⟩, ⟨hlb1, hlbN⟩, ?_⟩
    rw [hwrap, Int.toNat_natCast, ← cast]
    exact ⟨by omega, by omega, by omega, by omega, _, hread⟩

/-- Settles O30: the first three steps look at no table; the fourth finds both logs written, and their corrected
difference in the index range of `ALOG`. -/
theorem divCoreFollowsItsRule : Obligations.DivCoreFollowsItsRule := by
  refine ⟨fun s w a => divCore_of_zero_divisor w a s, fun s w b hb => divCore_of_zero_dividend s hb,
    fun s w a b ha hb h => divCore_of_outside s ha hb h, ?tables⟩
  case tables =>
    intro s w a b hs hv ha hb ha' hb'
    obtain ⟨bounds, -⟩ := logDifferenceBounds s w hs hv
    obtain ⟨la, lb, hlogA, hlogB, -, -, -, -, hnonneg, hle, v, hread⟩ := bounds a b ha hb ha' hb'
    obtain ⟨d, hd⟩ := Int.eq_ofNat_of_zero_le hnonneg
    have cast : ((2 ^ w : Nat) : Int) = (2 : Int) ^ w := Nat.cast_pow 2 w
    rw [hd, ← cast] at hle
    rw [hd, Int.toNat_natCast] at hread
    have hquotient := divCore_of_entries ha hb ha' hb' hlogA hlogB hd (by omega) hread
    rw [wrapDiff, fieldSize_eq, cast] at hd
    exact ⟨la, lb, d, v, hlogA, hlogB, hd.symm, hread, hquotient⟩

/-- Settles O31: after its `Lookup`, which succeeds on a served width, DIV ends as `DivCore` does. -/
theorem divFollowsItsRule : Obligations.DivFollowsItsRule := by
  refine ⟨fun s w a b h => exec_of_bad h, fun s w hs => ?served, fun s hs => ?worked⟩
  case served =>
    obtain ⟨t, hl, hst, hv⟩ := hs.exists_lookup
    have ht := hst.logTables hv
    have ends {a b v : Nat} (h : divCore w a b t = .ok v) : exec (.div w a b) s = .next (t.respond .ok v) := by
      rw [exec_div_of_lookup hl, h, finish]
    refine ⟨t, hl, fun a b => ⟨?zeroDivisor, fun hb => ends (divCore_of_zero_dividend t hb), fun ha hb h => ?outside,
      fun ha hb ha' hb' => ?elements, fun ha => ends (divCore_one hst.low hst.prim ht ha),
      fun h0 ha => ends (divCore_self hst.low hst.prim ht h0 ha), fun h2 hb => ?inverse⟩⟩
    case zeroDivisor =>
      rw [exec_div_of_lookup hl, divCore_of_zero_divisor]
      rfl
    case outside =>
      rw [exec_div_of_lookup hl, divCore_of_outside t ha hb h]
      rfl
    case elements =>
      obtain ⟨q, hdiv, -, -, hlt⟩ := exists_divCore_mulCore hst.low hst.prim ht ha hb ha' hb'
      have hw : w ≤ 32 := (hs.high.trans hs.inv.widths.2).trans (by decide)
      exact ⟨q, hlt.trans_le (Nat.pow_le_pow_right two_pos hw), hdiv, ends hdiv⟩
    case inverse =>
      obtain ⟨l, hl1, hlN, rfl, hlog, -⟩ := hst.exists_log hv hb (by omega)
      have notLast : l ≠ 2 ^ w - 1 := fun h => by
        have := (genPow_eq_one_iff hst.prim hl1 hlN).2 h
        omega
      exact ⟨l, _, hlog, by omega, by omega, hst.alogAt_eq hv (by omega),
        ends (divCore_one_genPow hst.low hst.prim ht hlN)⟩
  case worked =>
    obtain ⟨t, hl, hst, hv⟩ := hs.exists_lookup
    have hrom : t.romAt 2 = 7 := (romEntryTwoIsForced.1 _).1 hst.prim
    have ht := hst.logTables hv
    rw [hrom] at ht
    have hdiv : divCore 2 1 2 t = .ok 3 := divCore_genPow (by omega) ((romEntryTwoIsForced.1 7).2 rfl) ht 2 1
    exact ⟨t, hl, by rw [exec_div_of_lookup hl, hdiv, finish]⟩
end

/-! # Exponentiation by repeated multiplication (spec/43_exponentiate.md) -/

section
namespace Sys2Proof.Machine

/-! ### The two fast paths and the loop -/

section Loop

variable (w a : Nat) (s : State)

/-- The fast path for `e = 0` (spec/43_exponentiate.md R160 case 1). -/
@[simp] theorem expCore_zero : expCore w a 0 s = .ok 1 := rfl

/-- Any other exponent gives a loop of one multiplication less; the fast path for `e = 1` is the empty one
(spec/43_exponentiate.md R160 cases 2 and 3). -/
theorem expCore_succ (n : Nat) : expCore w a (n + 1) s = expLoop w a s n a := by
  cases n with
  | zero => rfl
  | succ n => simp [expCore]

/-- The fast path for `e = 1` (spec/43_exponentiate.md R160 case 2). -/
@[simp] theorem expCore_one : expCore w a 1 s = .ok a := expCore_succ w a s 0

variable {w a s}

/-- After `n` multiplications that give values the loop goes on from the last of them. -/
theorem expLoop_add_of_values {r : Nat → Nat} {n : Nat} (hr : ∀ k < n, mulCore w (r k) a s = .ok (r (k + 1))) :
    ∀ m, expLoop w a s (n + m) (r 0) = expLoop w a s m (r n) := by
  induction n with
  | zero => intro m; rw [Nat.zero_add]
  | succ n ih =>
    intro m
    have turns : n + 1 + m = n + (m + 1) := by omega
    calc expLoop w a s (n + 1 + m) (r 0) = expLoop w a s (n + (m + 1)) (r 0) := by rw [turns]
      _ = expLoop w a s (m + 1) (r n) := ih (fun k hk => hr k (Nat.lt_succ_of_lt hk)) (m + 1)
      _ = expLoop w a s m (r (n + 1)) := by rw [expLoop, hr n (Nat.lt_succ_self n), Res.bind_ok]

/-- Multiplications that all give values give the power. -/
theorem expCore_of_values {r : Nat → Nat} {n : Nat} (h0 : r 0 = a)
    (hr : ∀ k < n, mulCore w (r k) a s = .ok (r (k + 1))) : expCore w a (n + 1) s = .ok (r n) := by
  subst h0
  exact (expCore_succ w _ s n).trans (expLoop_add_of_values hr 0)

/-- The first multiplication that raises an error ends the loop. -/
theorem expCore_of_raise {r : Nat → Nat} {n m : Nat} {x : ErrorKind} (hn : n < m) (h0 : r 0 = a)
    (hr : ∀ k < n, mulCore w (r k) a s = .ok (r (k + 1))) (hx : mulCore w (r n) a s = .raise x) :
    expCore w a (m + 1) s = .raise x := by
  obtain ⟨j, rfl⟩ := Nat.exists_eq_add_of_lt hn
  calc expCore w a (n + j + 1 + 1) s = expLoop w a s (n + (j + 1)) (r 0) := by rw [expCore_succ, h0, Nat.add_assoc]
    _ = expLoop w a s (j + 1) (r n) := expLoop_add_of_values hr (j + 1)
    _ = .raise x := by rw [expLoop, hx, Res.bind_raise]

end Loop

/-! ### The corner bases -/

/-- Multiplying 0 gives 0 at every turn (spec/43_exponentiate.md R161). -/
theorem expCore_of_zero_base (w : Nat) {e : Nat} (s : State) (he : e ≠ 0) : expCore w 0 e s = .ok 0 := by
  obtain ⟨n, rfl⟩ := Nat.exists_eq_succ_of_ne_zero he
  exact expCore_of_values (r := fun _ => 0) rfl fun _ _ => mulCore_of_zero s (.inl rfl)

/-- A base that is no element is refused by the first multiplication (spec/43_exponentiate.md R161). -/
theorem expCore_of_outside {w a e : Nat} (s : State) (he : 2 ≤ e) (h : 2 ^ w ≤ a) :
    expCore w a e s = .raise .outOfRange := by
  obtain ⟨m, rfl⟩ := Nat.exists_eq_add_of_le' he
  have ha : a ≠ 0 := Nat.ne_of_gt ((Nat.two_pow_pos w).trans_le h)
  exact expCore_of_raise (r := fun _ => a) (Nat.succ_pos m) rfl nofun (mulCore_of_outside s ha ha (.inl h))

/-! ### Powers over tables of logs and powers -/

section LogTables

variable {s : State} {w p : Nat} (low : 2 ≤ w) (hp : PrimitiveAt w p) (ht : s.LogTables w p)

include low hp ht

/-- Exponentiation multiplies exponents. -/
theorem expCore_genPow (i e : Nat) : expCore w (genPow w p i) e s = .ok (genPow w p (i * e)) := by
  cases e with
  | zero => rfl
  | succ n =>
    exact expCore_of_values (r := fun k => genPow w p (i * (k + 1))) (by rw [Nat.zero_add, Nat.mul_one])
      fun k _ => mulCore_genPow low hp ht (i * (k + 1)) i

/-- Every power of a nonzero element is an element. -/
theorem exists_expCore {a : Nat} (h0 : a ≠ 0) (ha : a < 2 ^ w) (e : Nat) : ∃ v < 2 ^ w, expCore w a e s = .ok v := by
  obtain ⟨i, rfl⟩ := (eq_zero_or_genPow hp ha).resolve_left h0
  exact ⟨_, genPow_lt low hp (i * e), expCore_genPow low hp ht i e⟩

theorem expCore_one_base (e : Nat) : expCore w 1 e s = .ok 1 := by
  simpa using expCore_genPow low hp ht 0 e

/-- A power depends on the exponent only through its remainder modulo size-1 (spec/43_exponentiate.md R162). -/
theorem expCore_eq_of_mod_eq {a e f : Nat} (h0 : a ≠ 0) (ha : a < 2 ^ w) (h : e % (2 ^ w - 1) = f % (2 ^ w - 1)) :
    expCore w a e s = expCore w a f s := by
  obtain ⟨i, rfl⟩ := (eq_zero_or_genPow hp ha).resolve_left h0
  have same : i * e % (2 ^ w - 1) = i * f % (2 ^ w - 1) := Nat.ModEq.mul_left i h
  rw [expCore_genPow low hp ht, expCore_genPow low hp ht, ← genPow_mod hp, same, genPow_mod hp]

/-- One cycle of multiplications leads back to 1 (spec/43_exponentiate.md R162). -/
theorem expCore_period {a : Nat} (h0 : a ≠ 0) (ha : a < 2 ^ w) : expCore w a (2 ^ w - 1) s = .ok 1 :=
  expCore_eq_of_mod_eq low hp ht h0 ha (f := 0) (by rw [Nat.mod_self, Nat.zero_mod])

end LogTables

/-! ### EXP and its `Lookup` -/

/-- The elements of a served width fit the response's `VALUE` field (spec/30_encoding.md R82). -/
theorem State.Serves.lt_two_pow_xlen {s : State} {w x : Nat} (hs : s.Serves w) (hx : x < 2 ^ w) : x < 2 ^ 32 := by
  have hw : w ≤ 32 := (hs.high.trans hs.inv.widths.2).trans (by decide)
  exact hx.trans_le (Nat.pow_le_pow_right two_pos hw)

/-- After a `Lookup` that succeeds EXP ends as `ExpCore` does. -/
theorem exec_exp_of_lookup {w a e : Nat} {s t : State} (h : lookup w s = .ok t) :
    exec (.exp w a e) s = finish (expCore w a e t) t := exec_of_lookup (i := .exp w a e) h

end Sys2Proof.Machine
end

/-! # The obligations of spec/43_exponentiate.md -/

section
open Sys2Proof Sys2Proof.Machine

/-- Settles O47: a nonzero element is the power of the generator at its log, and exponentiation multiplies that log by
the exponent, whole cycles not counting. -/
theorem exponentiationClosedForm : Obligations.ExponentiationClosedForm := by
  intro s w hs hv
  have ht := hs.logTables hv
  refine ⟨fun e he => expCore_of_zero_base w s (by omega), fun a e h0 ha => ?closedForm, expCore_zero w 0 s,
    fun a h0 ha => expCore_period hs.low hs.prim ht h0 ha,
    fun a e f h0 ha h => expCore_eq_of_mod_eq hs.low hs.prim ht h0 ha h⟩
  case closedForm =>
    obtain ⟨la, -, -, rfl, hlog, -⟩ := hs.exists_log hv ha (Nat.pos_of_ne_zero h0)
    have size := hs.two_le_size
    have hlt : la * e % (2 ^ w - 1) < 2 ^ w := (Nat.mod_lt _ (by omega)).trans_le (Nat.sub_le _ _)
    refine ⟨la, _, hlog, hs.alogAt_eq hv hlt, ?_⟩
    rw [genPow_mod hs.prim, expCore_genPow hs.low hs.prim ht]

/-- Settles O32: the loop follows any sequence of values its multiplications give, as far as it goes. -/
theorem expCoreFollowsItsRule : Obligations.ExpCoreFollowsItsRule := by
  refine ⟨fun s w a => ⟨expCore_zero w a s, expCore_one w a s⟩, fun s w a e r he h0 hr => ?values,
    fun s w a e n r x he h0 hn hr hx => ?raise⟩
  case values =>
    obtain ⟨m, rfl⟩ := Nat.exists_eq_add_of_le' he
    exact expCore_of_values h0 hr
  case raise =>
    obtain ⟨m, rfl⟩ := Nat.exists_eq_add_of_le' he
    exact expCore_of_raise hn h0 hr hx

/-- Settles O33: after its `Lookup`, which succeeds on a served width, EXP ends as `ExpCore` does. -/
theorem expFollowsItsRule : Obligations.ExpFollowsItsRule := by
  refine ⟨fun s w a e h => exec_of_bad h, fun s w hs => ?served, fun s hs => ?worked⟩
  case served =>
    obtain ⟨t, hl, hst, hv⟩ := hs.exists_lookup
    have ht := hst.logTables hv
    have ends {a e v : Nat} (h : expCore w a e t = .ok v) : exec (.exp w a e) s = .next (t.respond .ok v) := by
      rw [exec_exp_of_lookup hl, h, finish]
    refine ⟨t, hl, fun a e => ⟨ends (expCore_zero w a t), fun _ => ends (expCore_one w a t),
      fun he => ends (expCore_of_zero_base w t (by omega)), fun he h => ?outside,
      fun _ => ends (expCore_one_base hst.low hst.prim ht e), fun _ h0 ha => ?element⟩⟩
    case outside =>
      rw [exec_exp_of_lookup hl, expCore_of_outside t he h]
      rfl
    case element =>
      obtain ⟨v, hlt, hexp⟩ := exists_expCore hst.low hst.prim ht h0 ha e
      exact ⟨v, hst.lt_two_pow_xlen hlt, hexp, ends hexp⟩
  case worked =>
    obtain ⟨t, hl, hst, hv⟩ := hs.exists_lookup
    have hrom : t.romAt 2 = 7 := (romEntryTwoIsForced.1 _).1 hst.prim
    have ht := hst.logTables hv
    rw [hrom] at ht
    have hexp : expCore 2 2 3 t = .ok 1 := expCore_genPow (by omega) ((romEntryTwoIsForced.1 7).2 rfl) ht 1 3
    exact ⟨t, hl, by rw [exec_exp_of_lookup hl, hexp, finish]⟩
end

/-! # The registry of slots and GETF (spec/44_registry_getf.md) -/

section
namespace Sys2Proof.Machine

/-! ### What `Lookup` leaves -/

theorem lookup_keeps_romAt {w : Nat} {s t : State} (h : lookup w s = .ok t) (i : Nat) : t.romAt i = s.romAt i := by
  rw [State.romAt, State.romAt, lookup_keeps_rom h]

theorem lookup_keeps_pending {w : Nat} {s t : State} (h : lookup w s = .ok t) : t.pending = s.pending := by
  obtain ⟨-, ⟨-, rfl⟩ | ⟨-, L, A, -, rfl⟩⟩ := lookup_ok_cases h <;> simp

section Served

variable {s : State} {w : Nat} (hs : s.Serves w) (hv : s.validAt w = true)

include hs hv

theorem State.Serves.slot_eq_of_build {L A : Table} (hb : build w (s.romAt w) #[] #[] = .ok (L, A)) :
    s.slot w = { valid := true, log := L, alog := A } := by
  rw [hs.build_eq hv] at hb
  cases hb
  rw [← hv, State.validAt]

/-- The contents of a built slot are a function of its width and its polynomial (spec/44_registry_getf.md R173). -/
theorem State.Serves.slot_eq_of_romAt_eq {t : State} (ht : t.Serves w) (htv : t.validAt w = true)
    (hrom : s.romAt w = t.romAt w) : s.slot w = t.slot w := by
  have hb := ht.build_eq htv
  rw [ht.slot_eq_of_build htv hb, hs.slot_eq_of_build hv (hrom ▸ hb)]

end Served

/-! ### Results that end a command with a response -/

/-- A command whose procedure has the result `r` ends, and with one and the same response from every state. -/
def Res.Ends (r : Res Nat) : Prop := ∃ st v, ∀ u : State, finish r u = .next (u.respond st v)

theorem Res.ends_ok (v : Nat) : (Res.ok v).Ends := ⟨.ok, v, fun _ => rfl⟩
theorem Res.ends_raise (e : ErrorKind) : (Res.raise e : Res Nat).Ends := ⟨e.status, 0, fun _ => rfl⟩

/-! ### Read-back -/

theorem logrdCore_of_outside {w i : Nat} (s : State) (h : 2 ^ w ≤ i) : logrdCore w i s = .raise .outOfRange := by
  simp [logrdCore, outside, h]

/-- Index 0 has no log and is refused (spec/45_table_readback.md R180). -/
theorem logrdCore_zero (w : Nat) (s : State) : logrdCore w 0 s = .raise .illegalCommand := by
  simp [logrdCore, outside]

theorem logrdCore_of_entry {w i v : Nat} {s : State} (h0 : i ≠ 0) (h : i < 2 ^ w) (hv : s.logAt w i = some v) :
    logrdCore w i s = .ok v := by
  rw [logrdCore, if_neg (by simpa [outside] using h), if_neg h0, readLog, tblRead_ok h hv]

theorem alogrdCore_of_outside {w i : Nat} (s : State) (h : 2 ^ w ≤ i) : alogrdCore w i s = .raise .outOfRange := by
  simp [alogrdCore, outside, h]

theorem alogrdCore_of_entry {w i v : Nat} {s : State} (h : i < 2 ^ w) (hv : s.alogAt w i = some v) :
    alogrdCore w i s = .ok v := by
  rw [alogrdCore, if_neg (by simpa [outside] using h), readAlog, tblRead_ok h hv]

/-! ### No command on a served width faults -/

section LogTables

variable {s : State} {w p : Nat} (low : 2 ≤ w) (hp : PrimitiveAt w p) (ht : s.LogTables w p)

include ht

theorem logrdCore_ends (i : Nat) : (logrdCore w i s).Ends := by
  by_cases hout : 2 ^ w ≤ i
  · rw [logrdCore_of_outside s hout]
    exact Res.ends_raise _
  by_cases h0 : i = 0
  · rw [h0, logrdCore_zero]
    exact Res.ends_raise _
  · obtain ⟨l, -, hlog, -⟩ := ht.log i (Nat.lt_of_not_le hout) (Nat.pos_of_ne_zero h0)
    rw [logrdCore_of_entry h0 (Nat.lt_of_not_le hout) hlog]
    exact Res.ends_ok l

theorem alogrdCore_ends (i : Nat) : (alogrdCore w i s).Ends := by
  by_cases hout : 2 ^ w ≤ i
  · rw [alogrdCore_of_outside s hout]
    exact Res.ends_raise _
  · rw [alogrdCore_of_entry (Nat.lt_of_not_le hout) (ht.alog i (Nat.lt_of_not_le hout))]
    exact Res.ends_ok _

include low hp

theorem mulCore_ends (a b : Nat) : (mulCore w a b s).Ends := by
  by_cases h0 : a = 0 ∨ b = 0
  · rw [mulCore_of_zero s h0]
    exact Res.ends_ok 0
  by_cases hout : 2 ^ w ≤ a ∨ 2 ^ w ≤ b
  · rw [mulCore_of_outside s (not_or.1 h0).1 (not_or.1 h0).2 hout]
    exact Res.ends_raise _
  · obtain ⟨ha, hb⟩ := not_or.1 hout
    obtain ⟨v, -, hv, -⟩ := exists_mulCore_comm low hp ht (Nat.lt_of_not_le ha) (Nat.lt_of_not_le hb)
    rw [hv]
    exact Res.ends_ok v

theorem divCore_ends (a b : Nat) : (divCore w a b s).Ends := by
  by_cases hb : b = 0
  · rw [hb, divCore_of_zero_divisor]
    exact Res.ends_raise _
  by_cases ha : a = 0
  · rw [ha, divCore_of_zero_dividend s hb]
    exact Res.ends_ok 0
  by_cases hout : 2 ^ w ≤ a ∨ 2 ^ w ≤ b
  · rw [divCore_of_outside s ha hb hout]
    exact Res.ends_raise _
  · obtain ⟨ha', hb'⟩ := not_or.1 hout
    obtain ⟨q, hq, -⟩ := exists_divCore_mulCore low hp ht ha hb (Nat.lt_of_not_le ha') (Nat.lt_of_not_le hb')
    rw [hq]
    exact Res.ends_ok q

theorem expCore_ends (a e : Nat) : (expCore w a e s).Ends := by
  by_cases hbase : a ≠ 0 ∧ a < 2 ^ w
  · obtain ⟨v, -, hv⟩ := exists_expCore low hp ht hbase.1 hbase.2 e
    rw [hv]
    exact Res.ends_ok v
  match e with
  | 0 => exact Res.ends_ok 1
  | 1 => exact Res.ends_ok a
  | e + 2 =>
    by_cases h0 : a = 0
    · rw [h0, expCore_of_zero_base w s (Nat.succ_ne_zero _)]
      exact Res.ends_ok 0
    · rw [expCore_of_outside s (Nat.le_add_left 2 e) (Nat.le_of_not_lt fun h => hbase ⟨h0, h⟩)]
      exact Res.ends_raise _

end LogTables

/-- Over tables of logs and powers every command's procedure ends with a response. -/
theorem Instr.body_ends (i : Instr) {s : State} {p : Nat} (low : 2 ≤ i.width) (hp : PrimitiveAt i.width p)
    (ht : s.LogTables i.width p) : (Instr.body i s).Ends := by
  cases i with
  | getf w => exact Res.ends_ok _
  | mul w a b => exact mulCore_ends low hp ht a b
  | div w a b => exact divCore_ends low hp ht a b
  | exp w a e => exact expCore_ends low hp ht a e
  | logrd w i => exact logrdCore_ends ht i
  | alogrd w i => exact alogrdCore_ends ht i

/-- From any two states that serve its width with the same polynomial a command draws the same response: both run the
same procedure on the same tables. -/
theorem exec_same_response (i : Instr) {s₁ s₂ : State} (h₁ : s₁.Serves i.width) (h₂ : s₂.Serves i.width)
    (hrom : s₁.romAt i.width = s₂.romAt i.width) :
    ∃ u₁ u₂ st v, lookup i.width s₁ = .ok u₁ ∧ lookup i.width s₂ = .ok u₂ ∧
      exec i s₁ = .next (u₁.respond st v) ∧ exec i s₂ = .next (u₂.respond st v) := by
  obtain ⟨u₁, hl₁, hu₁, hv₁⟩ := h₁.exists_lookup
  obtain ⟨u₂, hl₂, hu₂, hv₂⟩ := h₂.exists_lookup
  have hslot : u₁.slot i.width = u₂.slot i.width := by
    refine hu₁.slot_eq_of_romAt_eq hv₁ hu₂ hv₂ ?_
    rw [lookup_keeps_romAt hl₁, hrom, lookup_keeps_romAt hl₂]
  obtain ⟨st, v, hend⟩ := Instr.body_ends i hu₁.low hu₁.prim (hu₁.logTables hv₁)
  refine ⟨u₁, u₂, st, v, hl₁, hl₂, ?_, ?_⟩
  · rw [exec_of_lookup hl₁, hend]
  · rw [exec_of_lookup hl₂, ← Instr.body_congr i hslot, hend]

/-- After a `Lookup` that succeeds GETF answers the size (spec/44_registry_getf.md R171). -/
theorem exec_getf_of_lookup {w : Nat} {s t : State} (h : lookup w s = .ok t) :
    exec (.getf w) s = .next (t.respond .ok (2 ^ w)) := by
  rw [exec_of_lookup (i := .getf w) h, Instr.body, fieldSize_eq, finish]

end Sys2Proof.Machine
end

/-! # The obligations of spec/44_registry_getf.md -/

section
open Sys2Proof Sys2Proof.Machine

/-- Settles O50: a refused word and a bad width are answered before any slot is looked at; on a good width both states
come to the same tables. -/
theorem responsesDoNotDependOnTheRegistry : Obligations.ResponsesDoNotDependOnTheRegistry := by
  intro c s₁ s₂ hinv₁ hinv₂ hmax hrom hprim
  cases hd : decode c with
  | error x => exact ⟨_, _, _, step_illegal hd, step_illegal hd, rfl, rfl⟩
  | ok i =>
    obtain ⟨-, hw, -⟩ := (decode_eq_ok_iff c i).1 hd
    rw [hw] at hrom hprim
    rw [step_command hd, step_command hd]
    by_cases hbad : i.width < 2 ∨ s₁.maxWidth < i.width
    · exact ⟨_, _, _, exec_of_bad hbad, exec_of_bad (hmax ▸ hbad), rfl, rfl⟩
    · have low : 2 ≤ i.width := by omega
      have high : i.width ≤ s₁.maxWidth := by omega
      have serves₁ : s₁.Serves i.width := ⟨hinv₁, low, high, hprim low high⟩
      have serves₂ : s₂.Serves i.width := ⟨hinv₂, low, hmax ▸ high, hrom ▸ hprim low high⟩
      obtain ⟨u₁, u₂, st, v, hl₁, hl₂, hx₁, hx₂⟩ := exec_same_response i serves₁ serves₂ hrom
      refine ⟨_, _, { status := st, value := BitVec.ofNat 32 v }, hx₁, hx₂, ?_, ?_⟩
      · rw [State.respond_responses, lookup_keeps_responses hl₁]
      · rw [State.respond_responses, lookup_keeps_responses hl₂]

/-- Settles O26: `Lookup` succeeds on a served width and leaves it served and built, so its slot holds what `Build(w)`
writes, and a second `Lookup` finds it. -/
theorem lookupFollowsItsRule : Obligations.LookupFollowsItsRule := by
  refine ⟨fun s w h => lookup_of_bad h, fun s w low high h => lookup_of_built low high h, fun s w hs => ?served⟩
  case served =>
    obtain ⟨t, hl, ht, hv⟩ := hs.exists_lookup
    have hbuild := ht.build_eq hv
    rw [lookup_keeps_romAt hl] at hbuild
    exact ⟨t, _, _, hl, hv, hbuild, rfl, rfl, fun v hvw => lookup_slot_ne hl hvw, lookup_keeps_rom hl,
      lookup_keeps_maxWidth hl, lookup_keeps_pending hl, lookup_keeps_responses hl, lookup_of_built ht.low ht.high hv⟩

/-- Settles O27: after its `Lookup` GETF answers the size; a repeated GETF finds the slot built; and at width 2 the
polynomial can only be 7, whose tables are the worked example of `Build`. -/
theorem getfFollowsItsRule : Obligations.GetfFollowsItsRule := by
  refine ⟨fun s w h => exec_of_bad h, fun s w hs => ⟨?fits, ?served⟩, fun s hs => ?worked⟩
  case fits => exact Nat.pow_lt_pow_right one_lt_two (Nat.lt_succ_of_le (hs.high.trans hs.inv.widths.2))
  case served =>
    obtain ⟨t, hl, ht, hv⟩ := hs.exists_lookup
    have again : lookup w (t.respond .ok (2 ^ w)) = .ok (t.respond .ok (2 ^ w)) := lookup_of_built ht.low ht.high hv
    exact ⟨t, hl, exec_getf_of_lookup hl, exec_getf_of_lookup again⟩
  case worked =>
    obtain ⟨t, hl, ht, hv⟩ := hs.exists_lookup
    have hrom : t.romAt 2 = 7 := (romEntryTwoIsForced.1 _).1 ht.prim
    refine ⟨t, exec_getf_of_lookup hl, ht.slot_eq_of_build hv ?_⟩
    rw [hrom]
    exact buildTableContents.2
end

/-! # Table read-back (spec/45_table_readback.md) -/

section
namespace Sys2Proof.Machine

/-! ### The entries at the ends of the tables -/

/-- Doubling 1 needs no reduction, since 2 is an element of every width (spec/45_table_readback.md R181). -/
theorem genPow_one {w : Nat} (low : 2 ≤ w) (p : Nat) : genPow w p 1 = 2 := by
  have clear : Nat.testBit 2 w = false := Nat.testBit_lt_two_pow (Nat.pow_lt_pow_right one_lt_two low)
  simp [advance_eq, clear]

/-- No generator value is 0, so no log is written at 0 (spec/45_table_readback.md R180). -/
theorem State.Serves.logAt_zero {s : State} {w : Nat} (hs : s.Serves w) (hv : s.validAt w = true) :
    s.logAt w 0 = none := by
  refine Option.eq_none_iff_forall_ne_some.2 fun v hread => ?_
  have hzero := (build_log_origin (hs.build_eq hv) hread).2
  have := genPow_pos hs.low hs.prim v
  omega

/-- At width 2 the polynomial can only be 7, and `Lookup` leaves the tables of the worked example of `Build`. -/
theorem State.Serves.exists_lookup_two {s : State} (hs : s.Serves 2) :
    ∃ t, lookup 2 s = .ok t ∧ t.slot 2 =
      { valid := true, log := #[none, some 3, some 1, some 2], alog := #[some 1, some 2, some 3, some 1] } := by
  obtain ⟨t, hl, ht, hv⟩ := hs.exists_lookup
  have hrom : t.romAt 2 = 7 := (romEntryTwoIsForced.1 _).1 ht.prim
  exact ⟨t, hl, ht.slot_eq_of_build hv (hrom ▸ buildTableContents.2)⟩

/-! ### LOGRD and ALOGRD after a `Lookup` that succeeds -/

section Lookup

variable {w i : Nat} {s t : State} (hl : lookup w s = .ok t)

include hl

theorem exec_logrd_zero_of_lookup : exec (.logrd w 0) s = .next (t.respond .illegalCmd 0) := by
  rw [exec_of_lookup (i := .logrd w 0) hl, Instr.body, logrdCore_zero]
  rfl

theorem exec_logrd_of_outside (h : 2 ^ w ≤ i) : exec (.logrd w i) s = .next (t.respond .outOfRange 0) := by
  rw [exec_of_lookup (i := .logrd w i) hl, Instr.body, logrdCore_of_outside t h]
  rfl

theorem exec_logrd_of_entry {v : Nat} (h1 : 1 ≤ i) (h : i < 2 ^ w) (hv : t.logAt w i = some v) :
    exec (.logrd w i) s = .next (t.respond .ok v) := by
  rw [exec_of_lookup (i := .logrd w i) hl, Instr.body, logrdCore_of_entry (Nat.ne_of_gt h1) h hv, finish]

theorem exec_alogrd_of_outside (h : 2 ^ w ≤ i) : exec (.alogrd w i) s = .next (t.respond .outOfRange 0) := by
  rw [exec_of_lookup (i := .alogrd w i) hl, Instr.body, alogrdCore_of_outside t h]
  rfl

theorem exec_alogrd_of_entry {v : Nat} (h : i < 2 ^ w) (hv : t.alogAt w i = some v) :
    exec (.alogrd w i) s = .next (t.respond .ok v) := by
  rw [exec_of_lookup (i := .alogrd w i) hl, Instr.body, alogrdCore_of_entry h hv, finish]

end Lookup

end Sys2Proof.Machine
end

/-! # The obligations of spec/45_table_readback.md -/

section
open Sys2Proof Sys2Proof.Machine

/-- Settles O34: a nonzero element has its log in 1..size-1, and the last of these exponents is the log of 1 alone. -/
theorem logrdFollowsItsRule : Obligations.LogrdFollowsItsRule := by
  refine ⟨fun s w i h => exec_of_bad h, fun s w hs => ?served, fun s hs => ?worked⟩
  case served =>
    obtain ⟨t, hl, ht, hv⟩ := hs.exists_lookup
    refine ⟨t, hl, exec_logrd_zero_of_lookup hl, ht.logAt_zero hv, fun i h => exec_logrd_of_outside hl h,
      fun i h1 hi => ?element⟩
    case element =>
      obtain ⟨l, hl1, hlN, hpow, hlog, -⟩ := ht.exists_log hv hi h1
      have hlast : i = 1 ↔ l = 2 ^ w - 1 := hpow ▸ genPow_eq_one_iff ht.prim hl1 hlN
      exact ⟨l, ht.lt_two_pow_xlen (by omega), hlog, exec_logrd_of_entry hl h1 hi hlog, hlast.1, by omega⟩
  case worked =>
    obtain ⟨t, hl, hslot⟩ := hs.exists_lookup_two
    have hlog3 : t.logAt 2 3 = some 2 := by rw [State.logAt, hslot]; rfl
    have hlog1 : t.logAt 2 1 = some 3 := by rw [State.logAt, hslot]; rfl
    exact ⟨t, hl, exec_logrd_of_entry hl (by omega) (by omega) hlog3,
      exec_logrd_of_entry hl (by omega) (by omega) hlog1, exec_logrd_zero_of_lookup hl,
      exec_logrd_of_outside hl (by omega)⟩

/-- Settles O35: the antilog entries are the powers of the generator, and the power at the log of an element is the
element. -/
theorem alogrdFollowsItsRule : Obligations.AlogrdFollowsItsRule := by
  refine ⟨fun s w i h => exec_of_bad h, fun s w hs => ?served, fun s hs => ?worked⟩
  case served =>
    obtain ⟨t, hl, ht, hv⟩ := hs.exists_lookup
    have size := ht.two_le_size
    have power {k v : Nat} (hk : k < 2 ^ w) (h : genPow w (t.romAt w) k = v) :
        exec (.alogrd w k) s = .next (t.respond .ok v) := exec_alogrd_of_entry hl hk (h ▸ ht.alogAt_eq hv hk)
    refine ⟨t, hl, fun i h => exec_alogrd_of_outside hl h, fun i hi => ?entry, power (by omega) (genPow_zero w _),
      power (by omega) ht.prim.returns, power (by omega) (genPow_one ht.low _), fun i h1 hi => ?undoes⟩
    case entry =>
      exact ⟨_, ht.lt_two_pow_xlen (genPow_lt ht.low ht.prim i), ht.alogAt_eq hv hi, power hi rfl⟩
    case undoes =>
      obtain ⟨l, -, hlN, hpow, hlog, -⟩ := ht.exists_log hv hi h1
      exact ⟨l, exec_logrd_of_entry hl h1 hi hlog, power (by omega) hpow⟩
  case worked =>
    obtain ⟨t, hl, hslot⟩ := hs.exists_lookup_two
    have halog2 : t.alogAt 2 2 = some 3 := by rw [State.alogAt, hslot]; rfl
    have halog3 : t.alogAt 2 3 = some 1 := by rw [State.alogAt, hslot]; rfl
    exact ⟨t, hl, exec_alogrd_of_entry hl (by omega) halog2, exec_alogrd_of_entry hl (by omega) halog3,
      exec_alogrd_of_outside hl (by omega)⟩
end

/-! # The errors of the commands (spec/60_exceptions.md) -/

section
namespace Sys2Proof.Machine

/-! ### What the procedures raise -/

/-- The errors of a command's own procedure, which runs once the width has passed its check: the table of
spec/60_exceptions.md R191 to R193, without its rows on the width and on the decoder. -/
inductive Raises : Instr → ErrorKind → Prop
  | mulRange {w a b : Nat} (ha : a ≠ 0) (hb : b ≠ 0) (h : 2 ^ w ≤ a ∨ 2 ^ w ≤ b) : Raises (.mul w a b) .outOfRange
  | divZero (w a : Nat) : Raises (.div w a 0) .divideByZero
  | divRange {w a b : Nat} (ha : a ≠ 0) (hb : b ≠ 0) (h : 2 ^ w ≤ a ∨ 2 ^ w ≤ b) : Raises (.div w a b) .outOfRange
  | expRange {w a e : Nat} (he : 2 ≤ e) (h : 2 ^ w ≤ a) : Raises (.exp w a e) .outOfRange
  | logrdRange {w j : Nat} (h : 2 ^ w ≤ j) : Raises (.logrd w j) .outOfRange
  | logrdZero (w : Nat) : Raises (.logrd w 0) .illegalCommand
  | alogrdRange {w j : Nat} (h : 2 ^ w ≤ j) : Raises (.alogrd w j) .outOfRange

theorem raises_outOfRange_iff (i : Instr) : Raises i .outOfRange ↔
    (∃ w a b, i = .mul w a b ∧ a ≠ 0 ∧ b ≠ 0 ∧ (2 ^ w ≤ a ∨ 2 ^ w ≤ b)) ∨
    (∃ w a b, i = .div w a b ∧ a ≠ 0 ∧ b ≠ 0 ∧ (2 ^ w ≤ a ∨ 2 ^ w ≤ b)) ∨
    (∃ w a e, i = .exp w a e ∧ 2 ≤ e ∧ 2 ^ w ≤ a) ∨ (∃ w j, (i = .logrd w j ∨ i = .alogrd w j) ∧ 2 ^ w ≤ j) := by
  constructor
  · rintro (⟨ha, hb, h⟩ | _ | ⟨ha, hb, h⟩ | ⟨he, h⟩ | h | _ | h)
    · exact .inl ⟨_, _, _, rfl, ha, hb, h⟩
    · exact .inr (.inl ⟨_, _, _, rfl, ha, hb, h⟩)
    · exact .inr (.inr (.inl ⟨_, _, _, rfl, he, h⟩))
    · exact .inr (.inr (.inr ⟨_, _, .inl rfl, h⟩))
    · exact .inr (.inr (.inr ⟨_, _, .inr rfl, h⟩))
  · rintro (⟨w, a, b, rfl, ha, hb, h⟩ | ⟨w, a, b, rfl, ha, hb, h⟩ | ⟨w, a, e, rfl, he, h⟩ | ⟨w, j, rfl | rfl, h⟩)
    · exact .mulRange ha hb h
    · exact .divRange ha hb h
    · exact .expRange he h
    · exact .logrdRange h
    · exact .alogrdRange h

theorem raises_divideByZero_iff (i : Instr) : Raises i .divideByZero ↔ ∃ w a, i = .div w a 0 := by
  constructor
  · rintro ⟨⟩
    exact ⟨_, _, rfl⟩
  · rintro ⟨w, a, rfl⟩
    exact .divZero w a

theorem raises_illegalCommand_iff (i : Instr) : Raises i .illegalCommand ↔ ∃ w, i = .logrd w 0 := by
  constructor
  · rintro ⟨⟩
    exact ⟨_, rfl⟩
  · rintro ⟨w, rfl⟩
    exact .logrdZero w

/-- These checks come before any access to the tables. -/
theorem Raises.body_eq {i : Instr} {x : ErrorKind} (h : Raises i x) (s : State) : Instr.body i s = .raise x := by
  cases h with
  | mulRange ha hb h => exact mulCore_of_outside s ha hb h
  | divZero w a => exact divCore_of_zero_divisor w a s
  | divRange ha hb h => exact divCore_of_outside s ha hb h
  | expRange he h => exact expCore_of_outside s he h
  | logrdRange h => exact logrdCore_of_outside s h
  | logrdZero w => exact logrdCore_zero w s
  | alogrdRange h => exact alogrdCore_of_outside s h

/-- A command that passes these checks finds every entry it reads, and ends with a value. -/
theorem exists_body_eq_ok {i : Instr} {s : State} {p : Nat} (low : 2 ≤ i.width) (hp : PrimitiveAt i.width p)
    (ht : s.LogTables i.width p) (h : ∀ x, ¬ Raises i x) : ∃ v, Instr.body i s = .ok v := by
  cases i with
  | getf w => exact ⟨_, rfl⟩
  | mul w a b =>
    by_cases h0 : a = 0 ∨ b = 0
    · exact ⟨0, mulCore_of_zero s h0⟩
    obtain ⟨ha, hb⟩ := not_or.1 h0
    obtain ⟨ha', hb'⟩ := not_or.1 fun hout => h _ (.mulRange ha hb hout)
    obtain ⟨v, -, hv, -⟩ := exists_mulCore_comm low hp ht (Nat.lt_of_not_le ha') (Nat.lt_of_not_le hb')
    exact ⟨v, hv⟩
  | div w a b =>
    have hb : b ≠ 0 := by
      rintro rfl
      exact h _ (.divZero w a)
    by_cases ha : a = 0
    · exact ⟨0, ha ▸ divCore_of_zero_dividend s hb⟩
    obtain ⟨ha', hb'⟩ := not_or.1 fun hout => h _ (.divRange ha hb hout)
    obtain ⟨q, hq, -⟩ := exists_divCore_mulCore low hp ht ha hb (Nat.lt_of_not_le ha') (Nat.lt_of_not_le hb')
    exact ⟨q, hq⟩
  | exp w a e =>
    by_cases he : 2 ≤ e
    · have ha : a < 2 ^ w := Nat.lt_of_not_le fun hout => h _ (.expRange he hout)
      by_cases h0 : a = 0
      · exact ⟨0, h0 ▸ expCore_of_zero_base w s (by omega)⟩
      obtain ⟨v, -, hv⟩ := exists_expCore low hp ht h0 ha e
      exact ⟨v, hv⟩
    obtain rfl | rfl : e = 0 ∨ e = 1 := by omega
    · exact ⟨1, expCore_zero w a s⟩
    · exact ⟨a, expCore_one w a s⟩
  | logrd w j =>
    have h0 : j ≠ 0 := by
      rintro rfl
      exact h _ (.logrdZero w)
    have hj : j < 2 ^ w := Nat.lt_of_not_le fun hout => h _ (.logrdRange hout)
    obtain ⟨l, -, hlog, -⟩ := ht.log j hj (Nat.pos_of_ne_zero h0)
    exact ⟨l, logrdCore_of_entry h0 hj hlog⟩
  | alogrd w j =>
    have hj : j < 2 ^ w := Nat.lt_of_not_le fun hout => h _ (.alogrdRange hout)
    exact ⟨_, alogrdCore_of_entry hj (ht.alog j hj)⟩

/-! ### What the responses report -/

theorem ErrorKind.status_ne_ok (x : ErrorKind) : x.status ≠ .ok := by cases x <;> decide

theorem ErrorKind.status_inj {x y : ErrorKind} : x.status = y.status ↔ x = y := by cases x <;> cases y <;> decide

/-- A procedure raises one error at most: it has one result on any state. -/
theorem Raises.unique {i : Instr} {x y : ErrorKind} (hx : Raises i x) (hy : Raises i y) : x = y :=
  Res.raise.inj ((hx.body_eq State.reset).symm.trans (hy.body_eq State.reset))

/-- A command on a served width draws one response, which reports what its procedure raises. -/
theorem State.Serves.exec_reports {i : Instr} {s : State} (hs : s.Serves i.width) :
    ∃ t r, exec i s = .next t ∧ t.responses = s.responses ++ [r] ∧ (r.status ≠ .ok → r.value = 0) ∧
      ∀ x : ErrorKind, r.status = x.status ↔ Raises i x := by
  obtain ⟨t, hl, ht, hv⟩ := hs.exists_lookup
  have hresp := lookup_keeps_responses hl
  by_cases h : ∃ x, Raises i x
  · obtain ⟨x, hx⟩ := h
    refine ⟨t.raiseError x, { status := x.status, value := 0 }, ?_, ?_, fun _ => rfl, fun y => ?_⟩
    · rw [exec_of_lookup hl, hx.body_eq, finish]
    · rw [State.raiseError_responses, hresp]
    · exact ErrorKind.status_inj.trans ⟨fun h => h ▸ hx, hx.unique⟩
  · obtain ⟨v, hbody⟩ := exists_body_eq_ok ht.low ht.prim (ht.logTables hv) (not_exists.1 h)
    refine ⟨t.respond .ok v, { status := .ok, value := BitVec.ofNat 32 v }, ?_, ?_, absurd rfl, fun x => ?_⟩
    · rw [exec_of_lookup hl, hbody, finish]
    · rw [State.respond_responses, hresp]
    · exact iff_of_false (ErrorKind.status_ne_ok x).symm (not_exists.1 h x)

/-- Over a ROM that meets R22 every command draws one response, which reports the width when it is bad and otherwise
what the command's procedure raises (spec/60_exceptions.md R190). -/
theorem exec_reports {s : State} (hinv : s.Inv) (hrom : s.RomPrimitive) (i : Instr) :
    ∃ t r, exec i s = .next t ∧ t.responses = s.responses ++ [r] ∧ (r.status ≠ .ok → r.value = 0) ∧
      ∀ x : ErrorKind, r.status = x.status ↔
        ((i.width < 2 ∨ s.maxWidth < i.width) ∧ x = .outOfRange) ∨
        ((2 ≤ i.width ∧ i.width ≤ s.maxWidth) ∧ Raises i x) := by
  by_cases hbad : i.width < 2 ∨ s.maxWidth < i.width
  · refine ⟨_, _, exec_of_bad hbad, s.respond_responses .outOfRange 0, fun _ => rfl, fun x => ?_⟩
    have bad : ¬ (2 ≤ i.width ∧ i.width ≤ s.maxWidth) := by omega
    rw [or_iff_left fun h => bad h.1, and_iff_right hbad, eq_comm (a := x)]
    exact ErrorKind.status_inj (x := .outOfRange)
  · have good : 2 ≤ i.width ∧ i.width ≤ s.maxWidth := by omega
    have hs : s.Serves i.width := ⟨hinv, good.1, good.2, hrom _ good.2 good.1⟩
    obtain ⟨t, r, hexec, hresp, hvalue, hstatus⟩ := hs.exec_reports
    refine ⟨t, r, hexec, hresp, hvalue, fun x => ?_⟩
    rw [or_iff_right fun h => hbad h.1, and_iff_right good]
    exact hstatus x

end Sys2Proof.Machine
end

/-! # The obligations of spec/60_exceptions.md -/

section
open Sys2Proof Sys2Proof.Machine

/-- Settles O41: the response reports a bad width or what the procedure raises, and a bad width is a cause by itself. -/
theorem outOfRangeExactlyWhen : Obligations.OutOfRangeExactlyWhen := by
  intro i s hinv hrom
  obtain ⟨t, r, hexec, hresp, hvalue, hstatus⟩ := exec_reports hinv hrom i
  refine ⟨t, r, hexec, hresp, fun h => hvalue (by simp [h]), (hstatus .outOfRange).trans ?_⟩
  rw [← raises_outOfRange_iff]
  by_cases hbad : i.width < 2 ∨ s.maxWidth < i.width
  · exact iff_of_true (.inl ⟨hbad, rfl⟩) (.inl hbad)
  · have good : 2 ≤ i.width ∧ i.width ≤ s.maxWidth := by omega
    simp only [hbad, good, false_and, false_or, and_self, true_and]

/-- Settles O42: of the procedures DIV's alone raises DivideByZero, before it looks at the dividend. -/
theorem divideByZeroExactlyWhen : Obligations.DivideByZeroExactlyWhen := by
  intro i s hinv hrom
  obtain ⟨t, r, hexec, hresp, hvalue, hstatus⟩ := exec_reports hinv hrom i
  refine ⟨t, r, hexec, hresp, fun h => hvalue (by simp [h]), (hstatus .divideByZero).trans ?_⟩
  rw [raises_divideByZero_iff]
  constructor
  · rintro (⟨-, ⟨⟩⟩ | ⟨⟨low, high⟩, w, a, rfl⟩)
    exact ⟨w, a, rfl, low, high⟩
  · rintro ⟨w, a, rfl, low, high⟩
    exact .inr ⟨⟨low, high⟩, w, a, rfl⟩

/-- Settles O43: a refused word raises IllegalCommand on the state it was taken from; of the procedures LOGRD's alone
raises it, on the state its `Lookup` leaves. -/
theorem illegalCommandExactlyWhen : Obligations.IllegalCommandExactlyWhen := by
  intro c s hinv hrom
  cases hd : decode c with
  | error x =>
    exact ⟨_, _, step_illegal hd, s.raiseError_responses .illegalCommand, fun _ => rfl,
      iff_of_true rfl (.inl ⟨x, rfl⟩), fun _ => rfl, nofun⟩
  | ok i =>
    rw [step_command hd]
    obtain ⟨t, r, hexec, hresp, hvalue, hstatus⟩ := exec_reports hinv hrom i
    refine ⟨t, r, hexec, hresp, fun h => hvalue (by simp [h]), (hstatus .illegalCommand).trans ?causes, nofun, ?logrd⟩
    case causes =>
      rw [raises_illegalCommand_iff]
      constructor
      · rintro (⟨-, ⟨⟩⟩ | ⟨⟨low, high⟩, w, rfl⟩)
        exact .inr ⟨w, rfl, low, high⟩
      · rintro (⟨x, ⟨⟩⟩ | ⟨w, ⟨⟩, low, high⟩)
        exact .inr ⟨⟨low, high⟩, w, rfl⟩
    case logrd =>
      rintro w ⟨⟩ low high
      obtain ⟨u, hl, -⟩ := State.Serves.exists_lookup ⟨hinv, low, high, hrom w high low⟩
      rw [exec_logrd_zero_of_lookup hl] at hexec
      exact ⟨u, hl, (Host.Outcome.next.inj hexec).symm⟩
end

/-! # Reset, and what every command comes to (spec/70_reset_and_hazards.md) -/

section
namespace Sys2Proof.Machine

/-! ### Reset -/

/-- An unbuilt slot shows no valid flag and no entry (spec/70_reset_and_hazards.md R221). -/
theorem State.unwritten_of_slot_unbuilt {s : State} {w : Nat} (h : s.slot w = Slot.unbuilt) (i : Nat) :
    s.validAt w = false ∧ s.logAt w i = none ∧ s.alogAt w i = none := by
  rw [State.validAt, State.logAt, State.alogAt, h]
  exact ⟨rfl, Table.read_empty i, Table.read_empty i⟩

theorem step_reset (s : State) : step (s.present .reset) = .next s.resetEngine := rfl

/-- A command cut short does no part of its work (spec/70_reset_and_hazards.md R222). -/
theorem step_cutCommand (s : State) (c : CommandWord) : step (s.present (.cutCommand c)) = .next s.resetEngine := rfl

/-! ### Steps on a command word -/

/-- R22 speaks of the configuration alone. -/
theorem State.RomPrimitive.congr {s t : State} (h : t.config = s.config) (hs : s.RomPrimitive) : t.RomPrimitive := by
  obtain ⟨hmax, hrom⟩ := Config.mk.inj h
  intro w high low
  rw [State.romAt, hrom]
  exact hs w (hmax ▸ high) low

/-- A step on a command word takes that word and no later event. -/
theorem step_command_keeps_pending {s t : State} {c : CommandWord} (h : step (s.present (.command c)) = .next t) :
    t.pending = s.pending := by
  cases hd : decode c with
  | error x =>
    rw [step_illegal hd] at h
    cases h
    exact s.raiseError_pending .illegalCommand
  | ok i =>
    rw [step_command hd] at h
    obtain ⟨u, st, v, rfl, rfl | hu⟩ := exec_next_cases h
    · exact u.respond_pending st v
    · rw [State.respond_pending, lookup_keeps_pending hu]

/-- Over a ROM that meets R22 a step on a command word never faults: a refused word is answered at once, and every
other word spells a command, which draws a response. -/
theorem exists_step_command {s : State} (hinv : s.Inv) (hrom : s.RomPrimitive) (c : CommandWord) :
    ∃ t, step (s.present (.command c)) = .next t := by
  cases hd : decode c with
  | error x => exact ⟨_, step_illegal hd⟩
  | ok i =>
    rw [step_command hd]
    obtain ⟨t, -, hexec, -⟩ := exec_reports hinv hrom i
    exact ⟨t, hexec⟩

end Sys2Proof.Machine
end

/-! # The obligations of spec/70_reset_and_hazards.md -/

section
open Sys2Proof Sys2Proof.Machine

/-- Settles O18: the step answers; what it answers has one response more, and the invariant and the configuration are
kept by every step. -/
theorem everyCommandAnswersOnce : Obligations.EveryCommandAnswersOnce := by
  intro s c hinv hrom
  obtain ⟨t, h⟩ := exists_step_command hinv hrom c
  obtain ⟨r, hresp, -⟩ := step_command_responses h
  have hpresent : (s.present (.command c)).Inv := State.Inv.congr (s := s) rfl rfl rfl hinv
  have hconfig : t.config = s.config := (step_keeps_config h).trans rfl
  exact ⟨t, r, h, hresp, step_command_keeps_pending h, step_keeps_inv h hpresent,
    State.RomPrimitive.congr hconfig hrom⟩

/-- Settles O9: a fresh engine and a reset one have every slot unbuilt. -/
theorem stateAfterReset : Obligations.StateAfterReset := by
  refine ⟨fun c => ⟨State.initial_rom c, ?bank, State.initial_pending c, fun w => ?fresh⟩,
    fun s => ⟨s.resetEngine_rom, ?slots, fun w => ?running⟩⟩
  case bank => rw [State.initial_slots, List.length_replicate]
  case fresh => exact State.unwritten_of_slot_unbuilt (State.initial_slot c w)
  case slots => rw [State.resetEngine_slots, List.length_map]
  case running => exact State.unwritten_of_slot_unbuilt (s.resetEngine_slot w)

/-- Settles O11: a cut command steps as the reset event does, to the engine reset. -/
theorem cutCommandLeavesResetState : Obligations.CutCommandLeavesResetState := by
  intro s c
  exact ⟨(step_cutCommand s c).trans (step_reset s).symm, s.resetEngine, step_cutCommand s c,
    s.resetEngine_responses, s.resetEngine_rom, fun w => State.unwritten_of_slot_unbuilt (s.resetEngine_slot w)⟩
end

/-! # Multiplication of polynomials without tables (spec/93_implementation_defined.md) -/

section
namespace Sys2Proof.Machine

theorem polyMul_zero_left (w p n b : Nat) : polyMul w p n 0 b = 0 := by
  induction n generalizing b with
  | zero => rfl
  | succ n ih => rw [polyMul, advance_zero, ih, ite_self, Nat.xor_self]

/-- A number is its lowest bit and, one place up, the rest. -/
theorem xor_shiftLeft_half (b : Nat) : (if b % 2 = 1 then 1 else 0) ^^^ (b / 2) <<< 1 = b := by
  refine Nat.eq_of_testBit_eq fun i => ?_
  rw [Nat.testBit_xor, Nat.testBit_shiftLeft]
  cases i with
  | zero => split <;> simp [*]
  | succ i => split <;> simp [Nat.testBit_succ]

/-- Doubling a number whose double still has `w` bits needs no reduction. -/
theorem advance_of_lt_half {w b : Nat} (p : Nat) (h : b <<< 1 < 2 ^ w) : advance w p b = b <<< 1 := by
  rw [advance_eq, Nat.testBit_lt_two_pow h, if_neg Bool.false_ne_true]

/-- The reference multiplies by a power of the generator as doubling and reducing does: it takes `b` bit by bit, the
`k`-th power standing for `k` steps from 1, and those steps are linear. -/
theorem polyMul_genPow_left {w p n : Nat} (hn : n ≤ w) : ∀ (k : Nat) {b : Nat}, b < 2 ^ n →
    polyMul w p n (genPow w p k) b = (advance w p)^[k] b := by
  induction n with
  | zero =>
    intro k b hb
    obtain rfl : b = 0 := by omega
    exact (advance_iterate_zero w p k).symm
  | succ n ih =>
    intro k b hb
    have half : b / 2 < 2 ^ n := by omega
    have noReduction : advance w p (b / 2) = (b / 2) <<< 1 := by
      refine advance_of_lt_half p (Nat.lt_of_lt_of_le ?_ (Nat.pow_le_pow_right two_pos hn))
      rw [Nat.shiftLeft_eq]
      omega
    have lowest : (if b % 2 = 1 then genPow w p k else 0) = (advance w p)^[k] (if b % 2 = 1 then 1 else 0) := by
      split
      · exact genPow_add w p k 0
      · exact (advance_iterate_zero w p k).symm
    calc polyMul w p (n + 1) (genPow w p k) b
        = (if b % 2 = 1 then genPow w p k else 0) ^^^ polyMul w p n (genPow w p (k + 1)) (b / 2) := rfl
      _ = (advance w p)^[k] (if b % 2 = 1 then 1 else 0) ^^^ (advance w p)^[k] ((b / 2) <<< 1) := by
          rw [ih (Nat.le_of_succ_le hn) (k + 1) half, Function.iterate_succ_apply, noReduction, lowest]
      _ = (advance w p)^[k] b := by rw [← advance_iterate_xor, xor_shiftLeft_half]

end Sys2Proof.Machine
end

/-! # One step and one run: what they keep (spec/70_reset_and_hazards.md) -/

section
namespace Sys2Proof.Machine

/-! ### Steps -/

/-- An idle engine holds its state (spec/60_exceptions.md R200). -/
theorem step_idle {s : State} (h : s.pending = []) : step s = .next s := by
  simp only [step, takeEvent, h]

theorem step_withFetchWord {s : State} {nbits w : Nat} {i : Instr} (h : decodeTableWord nbits w = some i) :
    step (s.withFetchWord nbits w) = exec i s := by
  unfold decodeTableWord at h
  split at h
  · next j hd =>
    cases h
    exact step_command hd
  · cases h

/-- A fresh engine's memory is in canonical form. -/
theorem State.initial_wf (c : Config) : Memory.wf (State.initial c).slots = true := by
  rw [Memory.wf_iff, State.initial_slots]
  intro sl h
  rw [List.eq_of_mem_replicate h]
  exact Slot.unbuilt_wf

/-- Every step keeps the memory's canonical form (log entry 6). -/
theorem step_keeps_wf {s t : State} (h : step s = .next t) (hs : Memory.wf s.slots = true) :
    Memory.wf t.slots = true :=
  step_keeps (P := fun u => Memory.wf u.slots = true) (fun _ _ _ _ hslots hw => hslots ▸ hw)
    (fun _ _ _ => lookup_keeps_wf) (fun u _ => u.resetEngine_wf) h hs

/-! ### A run over the host's events -/

/-- The response a command word draws from a fresh engine of the configuration `c`. The last case stands for no
response: over a ROM that meets R22 there always is one (`exists_step_command_answer`). -/
def freshAnswer (c : Config) (cmd : CommandWord) : Response :=
  match step ((State.initial c).present (.command cmd)) with
  | .next t => t.responses.getLastD { status := .ok, value := 0 }
  | _ => { status := .ok, value := 0 }

theorem freshAnswer_of_step {c : Config} {cmd : CommandWord} {t : State} {old : List Response} {r : Response}
    (h : step ((State.initial c).present (.command cmd)) = .next t) (hr : t.responses = old ++ [r]) :
    freshAnswer c cmd = r := by
  simp only [freshAnswer, h, hr, List.getLastD_concat]

section Run

variable {s : State} (hinv : s.Inv) (hrom : s.RomPrimitive)

include hinv hrom

/-- Every engine of the configuration answers a command word as a fresh one does (spec/44_registry_getf.md R173). -/
theorem exists_step_command_answer (cmd : CommandWord) :
    ∃ t, step (s.present (.command cmd)) = .next t ∧ t.responses = s.responses ++ [freshAnswer s.config cmd] := by
  have hfresh : (State.initial s.config).Inv := State.initial_inv hinv.widths.1 hinv.widths.2
  obtain ⟨t, u, r, ht, hu, htr, hur⟩ := responsesDoNotDependOnTheRegistry cmd s (State.initial s.config) hinv hfresh
    rfl rfl fun low high => hrom _ high low
  exact ⟨t, ht, by rw [htr, freshAnswer_of_step hu hur]⟩

/-- Every event is taken, and draws the answer of a fresh engine if it is a command. -/
theorem exists_step_event (e : HostEvent) :
    ∃ t, step (s.present e) = .next t ∧ t.pending = s.pending ∧
      t.responses = s.responses ++ (e.answer (freshAnswer s.config)).toList := by
  cases e with
  | command cmd =>
    obtain ⟨t, ht, hresp⟩ := exists_step_command_answer hinv hrom cmd
    exact ⟨t, ht, step_command_keeps_pending ht, hresp⟩
  | reset => exact ⟨_, step_reset s, rfl, (List.append_nil _).symm⟩
  | cutCommand cmd => exact ⟨_, step_cutCommand s cmd, rfl, (List.append_nil _).symm⟩

end Run

/-- A run over all pending events takes them in order; each step leaves an engine of the same configuration that still
meets the invariant. -/
theorem exists_run_pending (evs : List HostEvent) : ∀ {s : State}, s.pending = evs → s.Inv → s.RomPrimitive →
    ∃ t : State, Sys2Proof.core.run evs.length s = .next t ∧ t.pending = [] ∧
      t.responses = s.responses ++ evs.filterMap (HostEvent.answer (freshAnswer s.config)) := by
  induction evs with
  | nil => exact fun {s} hp _ _ => ⟨s, rfl, hp, (List.append_nil _).symm⟩
  | cons e rest ih =>
    intro s hp hinv hrom
    obtain ⟨u, hstep, hpu, hru⟩ := exists_step_event (s := { s with pending := rest })
      (State.Inv.congr (s := s) rfl rfl rfl hinv) (State.RomPrimitive.congr (s := s) rfl hrom) e
    rw [← State.eq_present hp] at hstep
    have hconfig : u.config = s.config := step_keeps_config hstep
    obtain ⟨t, hrun, hpt, hrt⟩ := ih hpu (step_keeps_inv hstep hinv) (State.RomPrimitive.congr hconfig hrom)
    refine ⟨t, ?_, hpt, ?_⟩
    · have hcore : Sys2Proof.core.step s = .next u := hstep
      simp only [List.length_cons, Host.Core.run, hcore]
      exact hrun
    · rw [hrt, hru, hconfig, List.append_assoc, List.filterMap_eq_flatMap_toList, List.filterMap_eq_flatMap_toList,
        List.flatMap_cons]
      rfl

end Sys2Proof.Machine
end

/-! # The invariant, the reference multiplication and whole runs -/

section
open Sys2Proof Sys2Proof.Machine

/-- Settles O14: `Lookup` and reset keep the invariant, and a step changes the registry by nothing else. -/
theorem stepKeepsTheInvariant : Obligations.StepKeepsTheInvariant := fun _ _ hs h => step_keeps_inv h hs

/-- Settles O45: a nonzero `a` is a power of the generator, and the tables and the reference both multiply by it as
that many steps of doubling and reducing. -/
theorem multiplicationIsPolynomialMultiplication : Obligations.MultiplicationIsPolynomialMultiplication := by
  intro s w a b hs hv ha hb
  obtain rfl | ⟨k, rfl⟩ := eq_zero_or_genPow hs.prim ha
  · rw [mulCore_of_zero s (.inl rfl), polyMul_zero_left]
  · rw [mulCore_genPow_left hs.low hs.prim (hs.logTables hv) k hb, polyMul_genPow_left (Nat.le_refl w) k hb]

/-- Settles O51: the function is what a fresh engine of the configuration answers. -/
theorem runIsTheMapOfAPureFunction : Obligations.RunIsTheMapOfAPureFunction := by
  intro c
  refine ⟨freshAnswer c, ?_⟩
  rintro s rfl hinv hrom
  exact exists_run_pending s.pending rfl hinv hrom
end

/-! # Frames: what a command leaves unchanged and what it does not read -/

section
namespace Sys2Proof.Machine

/-! ### Replacing a slot -/

/-- The slot just replaced, whether or not the registry has it. -/
theorem State.slot_setSlot (s : State) (w : Nat) (sl : Slot) :
    (s.setSlot w sl).slot w = if 2 ≤ w ∧ w - 2 < s.slots.length then sl else s.slot w := by
  split
  · next h => exact s.setSlot_slot_same sl h.1 h.2
  · next h =>
    by_cases low : w < 2
    · rw [State.slot_of_low _ low, State.slot_of_low _ low]
    · have past : s.slots.length ≤ w - 2 := by omega
      rw [State.setSlot, if_neg low, List.set_eq_of_length_le past]

/-- Replacing a slot by itself changes nothing. -/
theorem State.setSlot_self (s : State) (w : Nat) : s.setSlot w (s.slot w) = s := by
  unfold State.setSlot State.slot
  by_cases low : w < 2
  · rw [if_pos low]
  by_cases h : w - 2 < s.slots.length
  · simp [low, h]
  · simp [low, List.set_eq_of_length_le (Nat.le_of_not_lt h)]

/-! ### What a command does not read -/

/-- The state `s'` is as good as `s` for a command of width `w`: it has the same configuration, bank size and slot
`w`. -/
structure State.AgreesAt (s s' : State) (w : Nat) : Prop where
  maxWidth : s'.maxWidth = s.maxWidth
  rom : s'.rom = s.rom
  bank : s'.slots.length = s.slots.length
  slot : s'.slot w = s.slot w

theorem lookup_of_unbuilt {w : Nat} {s : State} (low : 2 ≤ w) (high : w ≤ s.maxWidth) (h : s.validAt w = false) :
    lookup w s = buildSlot w s := by
  rw [lookup, badWidth_eq_false_iff.2 ⟨low, high⟩, h, if_neg Bool.false_ne_true, if_neg Bool.false_ne_true]

namespace State.AgreesAt

variable {s s' t : State} {w : Nat}

theorem validAt (ha : s.AgreesAt s' w) : s'.validAt w = s.validAt w := congrArg Slot.valid ha.slot

theorem romAt (ha : s.AgreesAt s' w) (i : Nat) : s'.romAt i = s.romAt i := by rw [State.romAt, State.romAt, ha.rom]

/-- Replacing the slot `w` in both states gives the same slot `w`. -/
theorem setSlot_slot (ha : s.AgreesAt s' w) (sl : Slot) : (s'.setSlot w sl).slot w = (s.setSlot w sl).slot w := by
  rw [State.slot_setSlot, State.slot_setSlot, ha.bank, ha.slot]

/-- `Lookup(w)` at most replaces the slot `w`, and what it puts there it reads from the configuration and that slot. -/
theorem lookup_ok (ha : s.AgreesAt s' w) (h : lookup w s = .ok t) :
    ∃ sl, t = s.setSlot w sl ∧ lookup w s' = .ok (s'.setSlot w sl) := by
  obtain ⟨low, high⟩ := (lookup_ok_cases h).1
  have high' : w ≤ s'.maxWidth := ha.maxWidth ▸ high
  cases hv : s.validAt w with
  | true =>
    refine ⟨s.slot w, ?_, ?_⟩
    · rw [State.setSlot_self, lookup_eq_self_of_built h hv]
    · rw [← ha.slot, State.setSlot_self, lookup_of_built low high' (ha.validAt.trans hv)]
  | false =>
    rw [lookup_of_unbuilt low high hv] at h
    obtain ⟨L, A, hw, hb, he⟩ | ⟨f, -, -, he⟩ | ⟨-, he⟩ := buildSlot_cases w s <;> rw [he] at h <;> cases h
    refine ⟨_, rfl, ?_⟩
    rw [lookup_of_unbuilt low high' (ha.validAt.trans hv), buildSlot, readRom_ok s' hw, Res.bind_ok, ha.romAt, ha.slot,
      hb, Res.bind_ok]

/-- A command at most replaces the slot it names and gives one response, and both it reads from the configuration and
that slot. -/
theorem exec_next {i : Instr} (ha : s.AgreesAt s' i.width) (h : exec i s = .next t) :
    ∃ sl st v, t = (s.setSlot i.width sl).respond st v ∧ exec i s' = .next ((s'.setSlot i.width sl).respond st v) := by
  by_cases hbad : i.width < 2 ∨ s.maxWidth < i.width
  · rw [exec_of_bad hbad] at h
    cases h
    refine ⟨s.slot i.width, .outOfRange, 0, by rw [State.setSlot_self], ?_⟩
    rw [exec_of_bad (ha.maxWidth ▸ hbad), ← ha.slot, State.setSlot_self]
  · obtain ⟨u, hu, hfin⟩ := exec_next_of_good (by omega) (by omega) h
    obtain ⟨st, v, -, rfl, hend⟩ := finish_next_cases hfin
    obtain ⟨sl, rfl, hu'⟩ := ha.lookup_ok hu
    refine ⟨sl, st, v, rfl, ?_⟩
    rw [exec_of_lookup hu', Instr.body_congr i (ha.setSlot_slot sl), hend]

end State.AgreesAt

/-- The slot of another width is of no concern to a command. -/
theorem State.agreesAt_setSlot (s : State) {v w : Nat} (sl : Slot) (h : w ≠ v) : s.AgreesAt (s.setSlot v sl) w :=
  ⟨s.setSlot_maxWidth v sl, s.setSlot_rom v sl, s.setSlot_slots_length v sl, s.setSlot_slot_ne sl h⟩

/-- Nor are the past responses. -/
theorem State.agreesAt_responses (s : State) (old : List Response) (w : Nat) :
    s.AgreesAt { s with responses := old } w := ⟨rfl, rfl, rfl, rfl⟩

theorem State.setSlot_respond_responses (s : State) (old : List Response) (w : Nat) (sl : Slot) (st : Status) (v : Nat) :
    (({ s with responses := old } : State).setSlot w sl).respond st v =
      { (s.setSlot w sl).respond st v with responses := old ++ [{ status := st, value := BitVec.ofNat 32 v }] } := by
  unfold State.setSlot
  split <;> rfl

/-- A step on an event reads no past response: what it adds and what else it leaves are the same with other ones. -/
theorem step_event_responses {s t : State} {e : HostEvent} (old : List Response) (h : step (s.present e) = .next t) :
    ∃ new, t.responses = s.responses ++ new ∧
      step (({ s with responses := old } : State).present e) = .next { t with responses := old ++ new } := by
  have engineReset : ({ s with responses := old } : State).resetEngine =
      { s.resetEngine with responses := old ++ [] } := by
    rw [List.append_nil]
    rfl
  cases e with
  | reset => cases h; exact ⟨[], (List.append_nil _).symm, congrArg Host.Outcome.next engineReset⟩
  | cutCommand c => cases h; exact ⟨[], (List.append_nil _).symm, congrArg Host.Outcome.next engineReset⟩
  | command c =>
    cases hd : decode c with
    | error x =>
      rw [step_illegal hd] at h ⊢
      cases h
      exact ⟨_, s.raiseError_responses .illegalCommand, rfl⟩
    | ok i =>
      rw [step_command hd] at h ⊢
      obtain ⟨sl, st, v, rfl, hexec⟩ := (s.agreesAt_responses old i.width).exec_next h
      refine ⟨[{ status := st, value := BitVec.ofNat 32 v }], ?_, ?_⟩
      · rw [State.respond_responses, State.setSlot_responses]
      · rw [hexec, State.setSlot_respond_responses]

/-! ### What a command writes -/

/-- `Build(w)` leaves a log entry that is no generator value of its iterations. -/
theorem build_read_log_of_ne {w p : Nat} {L A L' A' : Table} (h : build w p L A = .ok (L', A')) {i : Nat}
    (hi : ∀ k < 2 ^ w, genPow w p k ≠ i) : Table.read L' i = Table.read L i := by
  rw [build, fieldSize_eq] at h
  exact buildLoop_log_frame (2 ^ w) h fun k _ hk => hi k (by omega)

theorem build_read_alog {w p : Nat} {L A L' A' : Table} (h : build w p L A = .ok (L', A')) (i : Nat) :
    Table.read A' i = if i < 2 ^ w then some (genPow w p i) else Table.read A i := by
  rw [build, fieldSize_eq] at h
  rw [buildLoop_read_alog (2 ^ w) h]
  exact if_congr (by omega) rfl rfl

/-- `Lookup(w)` stores to no entry but those of `Build(w)` in an unbuilt slot. -/
theorem lookup_keeps_entry {w v j : Nat} {s u : State} (h : lookup w s = .ok u) :
    ((v ≠ w ∨ s.validAt v = true ∨ ∀ k < 2 ^ v, genPow v (s.romAt v) k ≠ j) → u.logAt v j = s.logAt v j) ∧
    ((v ≠ w ∨ s.validAt v = true ∨ 2 ^ v ≤ j) → u.alogAt v j = s.alogAt v j) := by
  have of_slot (hslot : u.slot v = s.slot v) : u.logAt v j = s.logAt v j ∧ u.alogAt v j = s.alogAt v j := by
    rw [State.logAt, State.alogAt, hslot]
    exact ⟨rfl, rfl⟩
  by_cases hvw : v ≠ w
  · have same := of_slot (lookup_slot_ne h hvw)
    exact ⟨fun _ => same.1, fun _ => same.2⟩
  obtain rfl := not_ne_iff.1 hvw
  obtain ⟨-, ⟨-, rfl⟩ | ⟨hv, L, A, hb, rfl⟩⟩ := lookup_ok_cases h
  · exact ⟨fun _ => rfl, fun _ => rfl⟩
  rw [hv]
  by_cases hin : 2 ≤ v ∧ v - 2 < s.slots.length
  · have new : (s.setSlot v { valid := true, log := L, alog := A }).slot v = { valid := true, log := L, alog := A } :=
      s.setSlot_slot_same _ hin.1 hin.2
    rw [State.logAt, State.alogAt, new]
    constructor
    · rintro (hne | hval | hj)
      · exact absurd rfl hne
      · cases hval
      · exact build_read_log_of_ne hb hj
    · rintro (hne | hval | hj)
      · exact absurd rfl hne
      · cases hval
      · rw [build_read_alog hb, if_neg (Nat.not_lt.2 hj)]
        rfl
  · have same := of_slot (by rw [State.slot_setSlot, if_neg hin])
    exact ⟨fun _ => same.1, fun _ => same.2⟩

end Sys2Proof.Machine
end

/-! # The configuration, the memory, the frames and the event port -/

section
open Sys2Proof Sys2Proof.Machine

/-- Settles O10: the reset event leaves the engine reset; a command word leaves built slots as they are. -/
theorem resetEventClearsEverySlot : Obligations.ResetEventClearsEverySlot := by
  refine ⟨fun s => ⟨s.resetEngine, step_reset s, s.resetEngine_validAt, s.resetEngine_rom, s.resetEngine_maxWidth,
    s.resetEngine_responses, s.resetEngine_pending⟩, fun s c t w h hv => ?_⟩
  rw [State.validAt, step_command_slot_of_built h hv]
  exact hv

/-- Settles O13: the two parameters are the configuration, which every step keeps. -/
theorem stepKeepsConfiguration : Obligations.StepKeepsConfiguration := by
  intro s t h
  obtain ⟨hmax, hrom⟩ := Config.mk.inj (step_keeps_config h)
  exact ⟨hrom, hmax⟩

/-- Settles O16: `Lookup` and reset keep the canonical form, and a step changes the memory by nothing else. -/
theorem stepKeepsMemoryCanonical : Obligations.StepKeepsMemoryCanonical := fun _ _ hs h => step_keeps_wf h hs

/-- Settles O22: a generator value is an element other than 0, and the rest are bounds of its double. -/
theorem buildIntermediatesAreBounded : Obligations.BuildIntermediatesAreBounded := by
  intro w p low hp k
  have element (k : Nat) : 1 ≤ genPow w p k ∧ genPow w p k < 2 ^ w := ⟨genPow_pos low hp k, genPow_lt low hp k⟩
  obtain ⟨pos, lt⟩ := element k
  obtain ⟨pos', lt'⟩ := element (k + 1)
  rw [genPow_succ] at pos' lt'
  rw [Nat.shiftLeft_eq, fieldSize_eq, Nat.pow_succ]
  refine ⟨by omega, by omega, by omega, by omega, by omega, fun hw => ?_⟩
  have size : 2 ^ w ≤ 2 ^ 31 := Nat.pow_le_pow_right two_pos hw
  omega

/-- Settles O23: the loop writes at its generator values and counters. -/
theorem buildStoresOnlyItsEntries : Obligations.BuildStoresOnlyItsEntries := by
  intro w p L A L' A' h
  refine ⟨fun i hi => build_read_log_of_ne h hi, fun i hi => ?_, fun k hk => ?_⟩
  · rw [build_read_alog h, if_neg (Nat.not_lt.2 hi)]
  · rw [build_read_alog h, if_pos hk]

/-- Settles O36: a command adds one response to the state it found or to the one its `Lookup` leaves. -/
theorem commandFrame : Obligations.CommandFrame := by
  intro i s t h
  have bad (hbad : i.width < 2 ∨ s.maxWidth < i.width) : t.slots = s.slots := by
    rw [exec_of_bad hbad] at h
    cases h
    rfl
  have unchanged (hv : s.validAt i.width = true ∨ i.width < 2 ∨ s.maxWidth < i.width) : t.slots = s.slots :=
    hv.elim (exec_slots_of_built h) bad
  obtain ⟨u, st, v, rfl, rfl | hu⟩ := exec_next_cases h
  · exact ⟨rfl, rfl, rfl, ⟨_, rfl⟩, fun _ _ => rfl, unchanged⟩
  · simp only [State.respond_maxWidth, State.respond_rom, State.respond_pending, State.respond_responses,
      State.respond_slot]
    exact ⟨lookup_keeps_maxWidth hu, lookup_keeps_rom hu, lookup_keeps_pending hu,
      ⟨_, by rw [lookup_keeps_responses hu]⟩, fun _ hne => lookup_slot_ne hu hne, unchanged⟩

/-- Settles O37: the one operation of a command that stores is its `Lookup`. -/
theorem commandStoresOnlyBuildEntries : Obligations.CommandStoresOnlyBuildEntries := by
  intro i s t h v j
  obtain ⟨u, st, x, rfl, rfl | hu⟩ := exec_next_cases h
  · exact ⟨fun _ => rfl, fun _ => rfl⟩
  · rw [State.respond_logAt, State.respond_alogAt]
    exact lookup_keeps_entry hu

/-- Settles O52: an idle step adds nothing; any other takes an event, and reads no response. -/
theorem pastResponsesAreNotRead : Obligations.PastResponsesAreNotRead := by
  intro s t old h
  obtain ⟨hp, rfl⟩ | ⟨e, rest, hp, -⟩ := step_next_cases h
  · refine ⟨[], (List.append_nil _).symm, ?_⟩
    rw [List.append_nil]
    exact step_idle hp
  · have hp' : ({ s with responses := old } : State).pending = e :: rest := hp
    rw [State.eq_present hp] at h
    rw [State.eq_present hp']
    exact step_event_responses old h

/-- Settles O53: the state with the other slot replaced agrees with the given one on all that the command reads, and
what it writes goes to its own slot. -/
theorem slotsDoNotInteract : Obligations.SlotsDoNotInteract := by
  intro i s t v sl hne h
  obtain ⟨own, st, x, rfl, hexec⟩ := (s.agreesAt_setSlot sl hne.symm).exec_next h
  rw [hexec, s.setSlot_comm sl own hne.symm, State.setSlot_respond]

/-- Settles O54: the reset engine serves the width with the same polynomial, and a built slot is a function of the
two. -/
theorem rebuildAfterResetGivesTheSameTables : Obligations.RebuildAfterResetGivesTheSameTables := by
  intro s w hs hv
  have hreset : s.resetEngine.Serves w := ⟨hs.inv.resetEngine, hs.low, hs.high, hs.prim⟩
  obtain ⟨t, hl, ht, htv⟩ := hreset.exists_lookup
  exact ⟨t, hl, ht.slot_eq_of_romAt_eq htv hs hv (lookup_keeps_romAt hl w)⟩

/-- Settles O1: the event taken is the one presented last. -/
theorem stepRunsTheDecodedCommand : Obligations.StepRunsTheDecodedCommand := by
  refine ⟨fun s c rest i hp hd => ?_, fun s nbits w i => step_withFetchWord⟩
  conv_lhs => rw [State.eq_present hp]
  exact step_command hd

/-- Settles O2: the decoder computes each of the nine words. -/
theorem sampleWordsDecode : Obligations.SampleWordsDecode :=
  ⟨rfl, rfl, rfl, rfl, rfl, rfl, rfl, rfl, rfl⟩

/-- Settles O5: the codes are the definition's, and no error kind is reported as OK. -/
theorem statusCodesAreTheFour : Obligations.StatusCodesAreTheFour := by
  refine ⟨rfl, rfl, rfl, rfl, fun st => ?_, ErrorKind.status_ne_ok⟩
  cases st <;> decide

/-- Settles O12: there is no event to take. -/
theorem idleEngineHoldsItsState : Obligations.IdleEngineHoldsItsState := fun _ => step_idle

/-- Settles O15: the reset state is the initial state of the default configuration, and no slot of an initial state is
built. -/
theorem initialStateMeetsTheInvariant : Obligations.InitialStateMeetsTheInvariant :=
  ⟨State.initial_inv (c := Config.standard) (by decide) (by decide),
    fun c low high => ⟨State.initial_inv low high, State.initial_wf c⟩⟩
end

/-! # The candidate ROM (spec/10_state.md R22, R24) -/

section
namespace Sys2Proof.Machine

section Order

variable {w p : Nat}

/-! ### A cycle of full length -/

theorem genPow_eq_iterate (w p k : Nat) : genPow w p k = (advance w p)^[k] 1 := genPow_add w p k 0

theorem genPow_lt_of_degree (low : 2 ≤ w) (hd : 2 ^ w ≤ p ∧ p < 2 ^ (w + 1)) (k : Nat) : genPow w p k < 2 ^ w := by
  induction k with
  | zero => exact Nat.one_lt_two_pow (by omega)
  | succ k ih => exact advance_lt hd ih

/-- The generator value comes back to 1 first after `n` steps, if it does so then and not after `n / q` steps for any
prime factor `q` of `n`. -/
theorem minimalPeriod_advance_eq {n : Nat} (hret : genPow w p n = 1)
    (hprime : ∀ q, q.Prime → q ∣ n → genPow w p (n / q) ≠ 1) : Function.minimalPeriod (advance w p) 1 = n := by
  have periodic : Function.IsPeriodicPt (advance w p) n 1 := (genPow_eq_iterate w p n).symm.trans hret
  obtain ⟨c, hc⟩ := periodic.minimalPeriod_dvd
  by_contra hne
  have hc1 : c ≠ 1 := by
    rintro rfl
    exact hne (hc.trans (Nat.mul_one _)).symm
  obtain ⟨q, hq, d, rfl⟩ := Nat.exists_prime_and_dvd hc1
  have hdiv : n / q = Function.minimalPeriod (advance w p) 1 * d := by
    rw [hc, Nat.mul_left_comm, Nat.mul_div_cancel_left _ hq.pos]
  refine hprime q hq ⟨Function.minimalPeriod (advance w p) 1 * d, by rw [← Nat.mul_left_comm]; exact hc⟩ ?_
  rw [hdiv, genPow_eq_iterate]
  exact (Function.isPeriodicPt_minimalPeriod (advance w p) 1).mul_const d

/-- A polynomial of degree `w` whose cycle has 2^w - 1 values meets R22: they are different and not 0, so there is no
room for another element. -/
theorem primitiveAt_of_minimalPeriod (low : 2 ≤ w) (hd : 2 ^ w ≤ p ∧ p < 2 ^ (w + 1))
    (hmin : Function.minimalPeriod (advance w p) 1 = 2 ^ w - 1) : PrimitiveAt w p := by
  have returns : genPow w p (2 ^ w - 1) = 1 := by
    rw [genPow_eq_iterate, ← hmin]
    exact Function.isPeriodicPt_minimalPeriod (advance w p) 1
  have once : ∀ j < 2 ^ w - 1, ∀ k < 2 ^ w - 1, genPow w p j = genPow w p k → j = k := by
    intro j hj k hk h
    rw [genPow_eq_iterate, genPow_eq_iterate] at h
    exact (Function.iterate_eq_iterate_iff_of_lt_minimalPeriod (hmin ▸ hj) (hmin ▸ hk)).1 h
  refine ⟨hd, returns, once, fun x hx h1 => ?_⟩
  have inside : ∀ k ∈ Finset.range (2 ^ w - 1), genPow w p k ∈ Finset.Icc 1 (2 ^ w - 1) := by
    intro k hk
    have hne : genPow w p k ≠ 0 := by
      intro h0
      have gone := genPow_eq_zero_of_le h0 (Finset.mem_range.1 hk).le
      omega
    have hlt := genPow_lt_of_degree low hd k
    exact Finset.mem_Icc.2 ⟨by omega, by omega⟩
  have onto := Finset.surj_on_of_inj_on_of_card_le (fun k _ => genPow w p k) inside
    (fun j k hj hk => once j (Finset.mem_range.1 hj) k (Finset.mem_range.1 hk)) (by simp)
  obtain ⟨k, hk, hkx⟩ := onto x (Finset.mem_Icc.2 ⟨h1, by omega⟩)
  exact ⟨k, Finset.mem_range.1 hk, hkx.symm⟩

/-! ### Large powers of the generator -/

/-- `genPow w p e` by squaring and doubling over the `n` bits of `e`. -/
def genPowBySquaring (w p : Nat) : Nat → Nat → Nat
  | 0, _ => 1
  | n + 1, e =>
    let half := genPowBySquaring w p n (e / 2)
    let square := polyMul w p w half half
    if e % 2 = 1 then advance w p square else square

theorem genPowBySquaring_eq (low : 2 ≤ w) (hd : 2 ^ w ≤ p ∧ p < 2 ^ (w + 1)) : ∀ {n e : Nat}, e < 2 ^ n →
    genPowBySquaring w p n e = genPow w p e := by
  intro n
  induction n with
  | zero =>
    intro e he
    obtain rfl : e = 0 := by omega
    rfl
  | succ n ih =>
    intro e he
    have square : polyMul w p w (genPow w p (e / 2)) (genPow w p (e / 2)) = genPow w p (e / 2 + e / 2) := by
      rw [polyMul_genPow_left (Nat.le_refl w) _ (genPow_lt_of_degree low hd _), genPow_add]
    simp only [genPowBySquaring, ih (by omega : e / 2 < 2 ^ n), square]
    split
    · rw [← genPow_succ]
      congr 1
      omega
    · congr 1
      omega

/-! ### A check of R22 -/

/-- The prime factors of the numbers 2^w - 1 for `w` in 2..31. -/
def mersenneFactors : List Nat :=
  [3, 5, 7, 11, 13, 17, 19, 23, 29, 31, 41, 43, 47, 73, 89, 113, 127, 151, 233, 241, 257, 331, 337, 601, 683, 1103, 1801,
    2089, 2731, 8191, 131071, 178481, 262657, 524287, 2147483647]

/-- The largest of them, 2^31 - 1, is prime by the Lucas-Lehmer test. -/
theorem prime_mersenne_thirtyOne : Nat.Prime 2147483647 := lucas_lehmer_sufficiency 31 (by norm_num) (by norm_num)

theorem prime_of_mem_mersenneFactors : ∀ q ∈ mersenneFactors, q.Prime := by
  simp only [mersenneFactors, List.forall_mem_cons, prime_mersenne_thirtyOne, true_and]
  norm_num

/-- `p` has degree `w`, the generator value is 1 after 2^w - 1 steps, and it is not 1 after (2^w - 1)/q steps for any
prime factor `q` of 2^w - 1, all of which are in the list (none has an exponent above 3). -/
def checksPrimitive (w p : Nat) : Bool :=
  2 ^ w ≤ p && p < 2 ^ (w + 1) && genPowBySquaring w p w (2 ^ w - 1) == 1 &&
    mersenneFactors.prod ^ 3 % (2 ^ w - 1) == 0 &&
    mersenneFactors.all fun q => (2 ^ w - 1) % q != 0 || genPowBySquaring w p w ((2 ^ w - 1) / q) != 1

theorem primitiveAt_of_checksPrimitive (low : 2 ≤ w) (h : checksPrimitive w p = true) : PrimitiveAt w p := by
  simp only [checksPrimitive, Bool.and_eq_true, decide_eq_true_eq, beq_iff_eq, List.all_eq_true, Bool.or_eq_true,
    bne_iff_ne] at h
  obtain ⟨⟨⟨⟨hlo, hhi⟩, hret⟩, hfac⟩, hall⟩ := h
  have hd : 2 ^ w ≤ p ∧ p < 2 ^ (w + 1) := ⟨hlo, hhi⟩
  have size := Nat.one_lt_two_pow (n := w) (by omega)
  have squaring {e : Nat} (he : e ≤ 2 ^ w - 1) : genPowBySquaring w p w e = genPow w p e :=
    genPowBySquaring_eq low hd (by omega)
  refine primitiveAt_of_minimalPeriod low hd (minimalPeriod_advance_eq ?_ fun q hq hqn => ?_)
  · rw [← squaring (Nat.le_refl _), hret]
  · have mem : q ∈ mersenneFactors :=
      mem_list_primes_of_dvd_prod hq.prime (fun r hr => (prime_of_mem_mersenneFactors r hr).prime)
        (hq.dvd_of_dvd_pow (hqn.trans (Nat.dvd_of_mod_eq_zero hfac)))
    rw [← squaring (Nat.div_le_self _ q)]
    exact (hall q mem).resolve_left fun hne => hne (Nat.mod_eq_zero_of_dvd hqn)

end Order

/-- The check of R22, run by the kernel on each of the thirty entries. -/
theorem candidatePoly_checksPrimitive :
    ∀ w ∈ List.range' 2 30, checksPrimitive w ((Config.candidatePoly[w]?).getD 0).toNat = true := by
  decide +kernel

end Sys2Proof.Machine
end

/-! # The obligation on the candidate ROM -/

section
open Sys2Proof Sys2Proof.Machine

/-- Settles O20: a cycle that is back at 1 after 2^w - 1 steps, and not after that number divided by any prime factor of
it, has full length; large powers of the generator are computed by squaring. -/
theorem candidateRomIsPrimitive : Obligations.CandidateRomIsPrimitive := by
  have primitive (w : Nat) (low : 2 ≤ w) (high : w ≤ 31) :
      PrimitiveAt w ((Config.candidatePoly[w]?).getD 0).toNat :=
    primitiveAt_of_checksPrimitive low
      (candidatePoly_checksPrimitive w (List.mem_range'_1.2 ⟨low, Nat.lt_succ_of_le high⟩))
  have width : State.reset.maxWidth ≤ 31 := by decide
  exact ⟨primitive, fun w high low => primitive w low (high.trans width)⟩
end
